-- ==== Sys2Proof/Word.lean ====
section
/-! DEFINITION. The byte, the only unit in which the SEEKCTR core moves data (20_memory R50), and the block transform's
type (00_scope R14). -/

namespace Sys2Proof

/-- A byte, an integer 0..255 (00_scope R17). -/
abbrev Byte := BitVec 8

/-- The block transform `E` of 00_scope R14 by its output bytes: `E key x j` is byte `j` of the encryption of `x` under
`key`. Any function at all; the model assumes nothing of it. -/
abbrev Cipher := List Byte → List Byte → Nat → Byte

end Sys2Proof
end

