-- ==== Sys2Proof/Config.lean ====
section
/-! DEFINITION. What an implementation fixes (00_scope R10 to R15) and the values the spec leaves open. The constants have
no body: nothing can be proved of them, so a claim holds whatever they are. -/

namespace Sys2Proof

/-- The static parameters of an instance (00_scope section 4): fixed before reset is released, read and written by no
command (10_state R33, 70 R233). -/
structure Params where
  /-- `B`, the cipher block size in bytes (R10). -/
  blockBytes : Nat
  /-- `B >= 1` (R10). -/
  blockBytes_pos : 1 ≤ blockBytes
  /-- `CFG_BUF`, the configured buffer size in bytes (R12). -/
  cfgBuf : Nat
  /-- `KEYLENS`, the key lengths the BlockCipher accepts (R13). -/
  keyLens : List Nat
  /-- `RES_CAN_SEEK` (R15). -/
  resCanSeek : Bool
  /-- `RES_CAN_CLOSE` (R15). -/
  resCanClose : Bool
deriving DecidableEq, Repr

namespace Config

/-- `B - 1` of the machine at hand (93 U13: a parameter). -/
opaque blockBytesLessOne : Nat

/-- `CFG_BUF` of the machine at hand (93 U13). -/
opaque cfgBuf : Nat

/-- `KEYLENS` of the machine at hand (93 U13). -/
opaque keyLens : List Nat

/-- `RES_CAN_SEEK` of the machine at hand (93 U13). -/
opaque resCanSeek : Bool

/-- `RES_CAN_CLOSE` of the machine at hand (93 U13). -/
opaque resCanClose : Bool

/-- The static parameters of the machine at hand: every value the spec allows. -/
def params : Params where
  blockBytes := blockBytesLessOne + 1
  blockBytes_pos := Nat.le_add_left 1 blockBytesLessOne
  cfgBuf := cfgBuf
  keyLens := keyLens
  resCanSeek := resCanSeek
  resCanClose := resCanClose

/-- The transform `E` of the attached BlockCipher (00_scope R14, 93 U22). -/
opaque encryptByte : Cipher

/-- FREE VALUE, DESIGN CHOICE (log 3): the key after reset number `n` (10_state R38: unspecified). -/
opaque resetKey : Nat → List Byte

/-- FREE VALUE, DESIGN CHOICE (log 3): byte `j` of `iv` after reset number `n` (10_state R38: unspecified). -/
opaque resetIvByte : Nat → Nat → Byte

/-- FREE VALUE, DESIGN CHOICE (log 3): byte `j` of `ctr` after reset number `n` (10_state R38: unspecified). -/
opaque resetCtrByte : Nat → Nat → Byte

/-- FREE VALUE, DESIGN CHOICE (log 3): the ghost `pos` after reset number `n` (10_state R38: undefined). -/
opaque resetPos : Nat → Nat

end Config
end Sys2Proof
end

