-- ==== Sys2Proof/Syntax.lean ====
section
/-! DEFINITION. The commands of the SEEKCTR core: one constructor per row of spec/opcode_table.json (30_encoding R88). A
command is a header AND its payload (R80); the lengths the header carries are the lengths of the byte strings, as in the
assembler syntax of R93. -/

namespace Sys2Proof

/-- The reference point of a resource seek (30_encoding R83). -/
inductive Whence where
  /-- From the start of the resource. -/
  | start
  /-- From its current position. -/
  | cur
  /-- From its end. -/
  | fromEnd
deriving DecidableEq, Repr

/-- A command of 30_encoding R88. -/
inductive Instr where
  /-- INIT (41 R130): construct the instance from a key and an IV. -/
  | init (key iv : List Byte)
  /-- APPLY (41 R133): combine the data with the next keystream bytes. -/
  | apply (data : List Byte)
  /-- SEEKTO (41 R136): the generator to an absolute stream offset, a 64-bit two's-complement field. -/
  | seekto (offset : BitVec 64)
  /-- RD (42 R150): read up to `len` bytes from the resource and decrypt them. -/
  | rd (len : BitVec 64)
  /-- WR (42 R153): encrypt the data and write it to the resource. -/
  | wr (data : List Byte)
  /-- SEEK with whence START (42 R156). -/
  | seekStart (offset : BitVec 64)
  /-- SEEK with whence CUR (42 R156). -/
  | seekCur (offset : BitVec 64)
  /-- SEEK with whence END (42 R156). -/
  | seekEnd (offset : BitVec 64)
  /-- CLOSE (42 R159). -/
  | close
deriving DecidableEq, Repr

end Sys2Proof
end

