-- ==== Sys2Proof/Machine/State.lean ====
section
/-! DEFINITION. The state of one instance (10_state R20 to R29), what crosses its ports, why the model stops, and the
state after reset. -/

namespace Sys2Proof.Machine

/-- Response status (30_encoding R86). The reserved codes 0x09 to 0xFF are never produced, so they have no constructor. -/
inductive Status where
  /-- 0x00: the command did what its rule says. -/
  | ok
  /-- 0x01 (60 R201): raised by INIT when the cipher rejects the key. -/
  | errInvalidKeyLength
  /-- 0x02 (60 R202): raised by INIT when `ivlen` is not `B`. -/
  | errInvalidIvLength
  /-- 0x03 (60 R203): a negative absolute stream offset reached the seek mapper. -/
  | errNegOffset
  /-- 0x04 (60 R204): a command other than INIT while `constructed = 0`. -/
  | errNotConstructed
  /-- 0x05 (60 R205): INIT while `constructed = 1`. -/
  | errAlreadyConstructed
  /-- 0x06 (60 R206): the header decodes to no command. -/
  | errIllegalCmd
  /-- 0x07 (60 R207): SEEK or CLOSE on a resource without that capability; no fault. -/
  | unsupported
  /-- 0x08 (60 R208): the resource answered with `rstat` not 0; no fault of the core. -/
  | resource
deriving DecidableEq, Repr

/-- A response: one per command (30_encoding R85). -/
structure Response where
  status : Status
  rstat : BitVec 32
  value : BitVec 64
  payload : List Byte
deriving DecidableEq, Repr

/-- What the resource answers to the request it belongs to (20_memory R55): bytes read, a count written, a position, or a
bare status; always with its 32-bit `rstat`. -/
inductive ResAnswer where
  | read (d : List Byte) (rstat : BitVec 32)
  | write (m : Nat) (rstat : BitVec 32)
  | seek (position : BitVec 64) (rstat : BitVec 32)
  | close (rstat : BitVec 32)
deriving DecidableEq, Repr

/-- What an observer sees (00_scope R9): requests on the cipher port (20_memory R54), requests on the resource port (R55),
responses (30_encoding R85). -/
inductive PortEvent where
  | cipherKeyLoad (key : List Byte)
  | cipherEncrypt (block : List Byte)
  | resRead (len : BitVec 64)
  | resWrite (d : List Byte)
  | resSeek (offset : BitVec 64) (whence : Whence)
  | resClose
  | response (r : Response)
deriving DecidableEq, Repr

/-- Why the model has no further step. The spec's own faults are responses (60 R200), not these. -/
inductive Fault where
  /-- RD, WR, SEEK or CLOSE asked the resource and it has no answer to give: the core is stuck waiting (70 R242, 93 U15).
  `seen` is everything an observer has seen by then (00_scope R9), the unanswered request last (log 18). Safe: the hardware
  goes no further either. -/
  | resourceSilent (seen : List PortEvent)
  /-- XORSTEP (in APPLY, RD, WR) would read a buffer index `>= C`, which does not exist (20_memory R41). Safe: no
  reachable state does it. -/
  | bufferIndexOutside
  /-- XORSTEP (in APPLY, RD, WR) would read a buffer byte that holds no value (10_state R24, R38). Safe: no reachable
  state does it. -/
  | bufferUnwritten
deriving DecidableEq, Repr

/-- Why the model gives a command no meaning. -/
inductive Refusal where
  /-- Raised by an arm of `exec` whose instruction has no meaning yet; no arm does. Safe. -/
  | notModelled (mnemonic : String)
  /-- RD, WR, SEEK or CLOSE met an answer that is no move of the resource: of another kind, more bytes than asked, or a
  count above the length (20_memory R55, 92 D41, 93 U5). `seen` is everything an observer has seen by then (00_scope R9), the
  request that met that answer last (log 18). Safe. -/
  | resourceOutsideContract (seen : List PortEvent)
deriving DecidableEq, Repr

/-- The keystream buffer's memory (10_state R24): the indices that hold a value, strictly rising, with their bytes. An
unlisted index holds no value. -/
abbrev Memory := List Host.Cell

/-- The state of one instance. `constructed` to `cur` are the tuple of 10_state R20; `pos` is its ghost (R29); the other
fields are the model's own (INVENTORY.md, State). -/
structure State where
  /-- The static parameters (00_scope R10 to R15); no command writes them (10_state R33). Log 1. -/
  cfg : Params
  /-- R21: whether an instance exists (READY). -/
  constructed : Bool
  /-- R27: `K`, held by the BlockCipher. -/
  key : List Byte
  /-- R22: the IV, `B` bytes, byte 0 most significant. -/
  iv : List Byte
  /-- R23: the counter block, `B` bytes, byte 0 most significant. -/
  ctr : List Byte
  /-- R24: the keystream buffer. -/
  buf : Memory
  /-- R25: how many bytes of the buffer, from index 0, are generated and not discarded. -/
  len : Nat
  /-- R26: the index of the next unconsumed byte. -/
  cur : Nat
  /-- R29: the ghost stream position; no other field is computed from it. Log 10. -/
  pos : Nat
  /-- Bytes on the command port not yet taken, first byte first (20_memory R56). Log 5. -/
  cmdPort : List Byte
  /-- The answers the resource will give, next first (20_memory R55). Log 6. -/
  resPort : List ResAnswer
  /-- The host has applied reset and the core has not yet acted on it (70 R230). Log 9. -/
  resetLine : Bool
  /-- How many resets there have been: the index of the next free values (log 9). -/
  resets : Nat
  /-- Everything observed so far, oldest first (00_scope R9). Log 11; of a command that hangs, log 18. -/
  trace : List PortEvent
deriving DecidableEq, Repr

/-- `B` bytes given byte by byte. -/
def freeBlock (cfg : Params) (byteAt : Nat → Byte) : List Byte := (List.range cfg.blockBytes).map byteAt

/-- The machine right after reset (10_state R38, 70 R230): `constructed = 0`, `len = cur = 0`; `K`, `iv`, `ctr` and `pos`
are free constants (log 3); no buffer byte holds a value (log 4); nothing on the ports, nothing observed. -/
def State.reset : State where
  cfg := Config.params
  constructed := false
  key := Config.resetKey 0
  iv := freeBlock Config.params (Config.resetIvByte 0)
  ctr := freeBlock Config.params (Config.resetCtrByte 0)
  buf := []
  len := 0
  cur := 0
  pos := Config.resetPos 0
  cmdPort := []
  resPort := []
  resetLine := false
  resets := 1
  trace := []

end Sys2Proof.Machine
end

