-- ==== Sys2Proof/Machine/Flags.lean ====
section
/-! DEFINITION. The core has no flags (10_state R32): every outcome is reported in the response and nowhere else. This file
says how: status codes, classes, and the response word (30_encoding R85, R86; 60 R200). -/

namespace Sys2Proof.Machine

/-- The status codes of R86. -/
def Status.code : Status → BitVec 8
  | .ok => 0x00
  | .errInvalidKeyLength => 0x01
  | .errInvalidIvLength => 0x02
  | .errNegOffset => 0x03
  | .errNotConstructed => 0x04
  | .errAlreadyConstructed => 0x05
  | .errIllegalCmd => 0x06
  | .unsupported => 0x07
  | .resource => 0x08

/-- Class (2) of 60 R200: the command was refused and did nothing. -/
def Status.isFault : Status → Bool
  | .ok => false
  | .errInvalidKeyLength => true
  | .errInvalidIvLength => true
  | .errNegOffset => true
  | .errNotConstructed => true
  | .errAlreadyConstructed => true
  | .errIllegalCmd => true
  | .unsupported => false
  | .resource => false

/-- The status a command that asked the resource responds with: the core compares `rstat` with 0 and with nothing else
(30_encoding R87, 60 R208). -/
def resourceStatus (rstat : BitVec 32) : Status := if rstat = 0 then .ok else .resource

/-- The 104-bit response word `status[103:96] rstat[95:64] value[63:0]` (R85). -/
def Response.word (r : Response) : BitVec 104 := r.status.code ++ r.rstat ++ r.value

end Sys2Proof.Machine
end

