-- ==== Sys2Proof/WellFormed.lean ====
section
/-! DEFINITION. Which terms of `Instr` are commands the encoding can carry: every byte string's length fits its length
field (00_scope R16, 30_encoding R82, R83). -/

namespace Sys2Proof

/-- `klen` and `ivlen` are 32-bit fields, `len` is a 64-bit field (00_scope R16). -/
def Instr.wf : Instr → Bool
  | .init key iv => decide (key.length < 2 ^ 32) && decide (iv.length < 2 ^ 32)
  | .apply data => decide (data.length < 2 ^ 64)
  | .seekto _ => true
  | .rd _ => true
  | .wr data => decide (data.length < 2 ^ 64)
  | .seekStart _ => true
  | .seekCur _ => true
  | .seekEnd _ => true
  | .close => true

end Sys2Proof
end

