-- ==== Sys2Proof/Decode.lean ====
section
/-! DEFINITION. From the bytes on the command port to a command, and back (30_encoding). Big-endian byte order throughout
(20_memory R45, R47). -/

namespace Sys2Proof

/-! ## Big-endian numbers (00_scope R18) -/

/-- `be(s)`: the natural number a byte sequence denotes, byte 0 most significant. -/
def be : List Byte → Nat
  | [] => 0
  | b :: bs => b.toNat * 256 ^ bs.length + be bs

/-- `tobe_n(v)`: the `n` bytes whose big-endian value is `v mod 256^n`. -/
def tobe : Nat → Nat → List Byte
  | 0, _ => []
  | n + 1, v => BitVec.ofNat 8 (v / 256 ^ n) :: tobe n v

/-! ## The header (R80, R81) -/

/-- Bytes in a serialised header (R81). -/
def headerLength : Nat := 10

/-- `op = H[79:72]` (R80). -/
def headerOp (h : BitVec 80) : BitVec 8 := h.extractLsb' 72 8

/-- `sub = H[71:64]` (R80). -/
def headerSub (h : BitVec 80) : BitVec 8 := h.extractLsb' 64 8

/-- `arg = H[63:0]` (R80). -/
def headerArg (h : BitVec 80) : BitVec 64 := h.extractLsb' 0 64

/-- `klen = arg[63:32]` (R82, R83). -/
def argKlen (arg : BitVec 64) : BitVec 32 := arg.extractLsb' 32 32

/-- `ivlen = arg[31:0]` (R82, R83). -/
def argIvlen (arg : BitVec 64) : BitVec 32 := arg.extractLsb' 0 32

/-- A header from its three fields (R80). -/
def packHeader (op sub : BitVec 8) (arg : BitVec 64) : BitVec 80 := op ++ sub ++ arg

/-- The ten bytes of a header, most significant first (R81). -/
def headerBytes (h : BitVec 80) : List Byte := tobe headerLength h.toNat

/-- The header the first ten bytes hold (R81). -/
def headerOfBytes (bytes : List Byte) : BitVec 80 := BitVec.ofNat 80 (be bytes)

/-! ## The opcode map (R88) -/

/-- A row of the opcode map: a header `h` selects it iff `h and mask = pattern`. -/
structure Row where
  mnemonic : String
  pattern : BitVec 80
  mask : BitVec 80
deriving DecidableEq, Repr

/-- Whether a header selects a row (R88). -/
def Row.selects (r : Row) (h : BitVec 80) : Bool := h &&& r.mask == r.pattern

/-- The nine rows of R88, transcribed; `decodeHeader` is written from the fields instead, and a statement says that the
two agree. -/
def opcodeRows : List Row :=
  [⟨"INIT", 0x01000000000000000000, 0xFFFF0000000000000000⟩,
   ⟨"APPLY", 0x02000000000000000000, 0xFFFF0000000000000000⟩,
   ⟨"SEEKTO", 0x03000000000000000000, 0xFFFF0000000000000000⟩,
   ⟨"RD", 0x10000000000000000000, 0xFFFF0000000000000000⟩,
   ⟨"WR", 0x11000000000000000000, 0xFFFF0000000000000000⟩,
   ⟨"SEEK.START", 0x12000000000000000000, 0xFFFF0000000000000000⟩,
   ⟨"SEEK.CUR", 0x12010000000000000000, 0xFFFF0000000000000000⟩,
   ⟨"SEEK.END", 0x12020000000000000000, 0xFFFF0000000000000000⟩,
   ⟨"CLOSE", 0x13000000000000000000, 0xFFFFFFFFFFFFFFFFFFFF⟩]

/-- Why a header is illegal (R89). -/
inductive Reject where
  /-- `op` is in no row. -/
  | reservedOpcode
  /-- `sub` is not 0 in a command that has no whence. -/
  | reservedSub
  /-- `sub` is 3 or more in a SEEK. -/
  | reservedWhence
  /-- `arg` is not 0 in CLOSE. -/
  | closeArg
deriving DecidableEq, Repr

/-- A decoded header: the command's name and the operands the header itself holds (R82, R83). -/
inductive Header where
  | init (klen ivlen : BitVec 32)
  | apply (len : BitVec 64)
  | seekto (offset : BitVec 64)
  | rd (len : BitVec 64)
  | wr (len : BitVec 64)
  | seekStart (offset : BitVec 64)
  | seekCur (offset : BitVec 64)
  | seekEnd (offset : BitVec 64)
  | close
deriving DecidableEq, Repr

/-- A command whose `sub` must be 0 (R82). -/
def plainSub (sub : BitVec 8) (hd : Header) : Except Reject Header :=
  if sub = 0 then .ok hd else .error .reservedSub

/-- SEEK's whence code (R83): 0 = START, 1 = CUR, 2 = END, nothing else. -/
def decodeSeek (sub : BitVec 8) (offset : BitVec 64) : Except Reject Header :=
  if sub = 0 then .ok (.seekStart offset)
  else if sub = 1 then .ok (.seekCur offset)
  else if sub = 2 then .ok (.seekEnd offset)
  else .error .reservedWhence

/-- CLOSE: `sub` and `arg` must both be 0 (R83, R88, R89). -/
def decodeClose (sub : BitVec 8) (arg : BitVec 64) : Except Reject Header :=
  if sub = 0 then (if arg = 0 then .ok .close else .error .closeArg) else .error .reservedSub

/-- The decoder, a total function of the header that reads no state (R88, R89, R92). -/
def decodeHeader (h : BitVec 80) : Except Reject Header :=
  let op := headerOp h
  let sub := headerSub h
  let arg := headerArg h
  if op = 0x01 then plainSub sub (.init (argKlen arg) (argIvlen arg))
  else if op = 0x02 then plainSub sub (.apply arg)
  else if op = 0x03 then plainSub sub (.seekto arg)
  else if op = 0x10 then plainSub sub (.rd arg)
  else if op = 0x11 then plainSub sub (.wr arg)
  else if op = 0x12 then decodeSeek sub arg
  else if op = 0x13 then decodeClose sub arg
  else .error .reservedOpcode

/-! ## Payload and framing (R84) -/

/-- How many payload bytes follow a header (R84). -/
def Header.payloadLength : Header → Nat
  | .init klen ivlen => klen.toNat + ivlen.toNat
  | .apply len => len.toNat
  | .wr len => len.toNat
  | .seekto _ => 0
  | .rd _ => 0
  | .seekStart _ => 0
  | .seekCur _ => 0
  | .seekEnd _ => 0
  | .close => 0

/-- The command a header and its payload make (R83): of INIT the first `klen` payload bytes are the key, the rest the IV. -/
def Header.instr (payload : List Byte) : Header → Instr
  | .init klen _ => .init (payload.take klen.toNat) (payload.drop klen.toNat)
  | .apply _ => .apply payload
  | .wr _ => .wr payload
  | .seekto offset => .seekto offset
  | .rd len => .rd len
  | .seekStart offset => .seekStart offset
  | .seekCur offset => .seekCur offset
  | .seekEnd offset => .seekEnd offset
  | .close => .close

/-- What stands at the front of a command stream. -/
inductive Decoded where
  /-- Fewer than ten bytes: no header yet. -/
  | noHeader
  /-- A legal header whose payload is not all there yet (R84: not a command). -/
  | noPayload
  /-- An illegal header (R89) and the bytes after it: it has no payload. -/
  | illegal (why : Reject) (rest : List Byte)
  /-- A whole command and the bytes after it. -/
  | command (i : Instr) (rest : List Byte)
deriving DecidableEq, Repr

/-- Decoding, total on any bytes (R84, R92). -/
def decode (bytes : List Byte) : Decoded :=
  if bytes.length < headerLength then .noHeader
  else
    match decodeHeader (headerOfBytes (bytes.take headerLength)) with
    | .error why => .illegal why (bytes.drop headerLength)
    | .ok hd =>
      let body := bytes.drop headerLength
      if body.length < hd.payloadLength then .noPayload
      else .command (hd.instr (body.take hd.payloadLength)) (body.drop hd.payloadLength)

/-! ## The encoder -/

/-- The numbers of the three reference points (R83). -/
def Whence.code : Whence → BitVec 8
  | .start => 0
  | .cur => 1
  | .fromEnd => 2

/-- A byte string's length in the 32-bit field of INIT (R82). -/
def lengthField32 (bs : List Byte) : BitVec 32 := BitVec.ofNat 32 bs.length

/-- A byte string's length in the 64-bit field of APPLY and WR (R82). -/
def lengthField64 (bs : List Byte) : BitVec 64 := BitVec.ofNat 64 bs.length

/-- The header of a command (R82, R88). -/
def encodeHeader : Instr → BitVec 80
  | .init key iv => packHeader 0x01 0 (lengthField32 key ++ lengthField32 iv)
  | .apply data => packHeader 0x02 0 (lengthField64 data)
  | .seekto offset => packHeader 0x03 0 offset
  | .rd len => packHeader 0x10 0 len
  | .wr data => packHeader 0x11 0 (lengthField64 data)
  | .seekStart offset => packHeader 0x12 Whence.start.code offset
  | .seekCur offset => packHeader 0x12 Whence.cur.code offset
  | .seekEnd offset => packHeader 0x12 Whence.fromEnd.code offset
  | .close => packHeader 0x13 0 0

/-- The payload of a command (R82). -/
def encodePayload : Instr → List Byte
  | .init key iv => key ++ iv
  | .apply data => data
  | .wr data => data
  | .seekto _ => []
  | .rd _ => []
  | .seekStart _ => []
  | .seekCur _ => []
  | .seekEnd _ => []
  | .close => []

/-- A whole command as it crosses a byte-wide channel (R81). -/
def encode (i : Instr) : List Byte := headerBytes (encodeHeader i) ++ encodePayload i

/-! ## The host's numbering of a table word -/

/-- The bytes of the command whose header is the low `nbits` bits of `w`, numbered as R80 numbers them, followed by a
payload of zeros of the length that header asks for. -/
def tableWordBytes (nbits w : Nat) : List Byte :=
  let h := BitVec.ofNat 80 (w % 2 ^ nbits)
  let zeros := match decodeHeader h with
    | .ok hd => hd.payloadLength
    | .error _ => 0
  headerBytes h ++ List.replicate zeros 0

/-- The command the decoder reads from a table word. -/
def decodeTableWord (nbits w : Nat) : Option Instr :=
  match decode (tableWordBytes nbits w) with
  | .command i _ => some i
  | _ => none

end Sys2Proof
end

