-- ==== Sys2Proof/Machine/Operands.lean ====
section
/-! DEFINITION. Operand forms (30_encoding R83, R94), the offset arithmetic of the seek mapper (40_primitives R119) and the
sizes derived from the static parameters (00_scope R11 to R13). -/

namespace Sys2Proof.Machine

/-- `W = 8 B`, the counter's width in bits (00_scope R11). -/
def counterBits (cfg : Params) : Nat := 8 * cfg.blockBytes

/-- `C = max(CFG_BUF, B)`, the buffer's capacity in bytes (00_scope R12). -/
def capacity (cfg : Params) : Nat := max cfg.cfgBuf cfg.blockBytes

/-- The cipher's verdict on a key, `accept` or `reject`: a pure function of its length (00_scope R7, R13, 20_memory R54). -/
def keyAccepted (cfg : Params) (key : List Byte) : Bool := decide (key.length ∈ cfg.keyLens)

/-- `sext_64`: the signed integer an offset field denotes (00_scope R18, 30_encoding R83). -/
def signedOffset (offset : BitVec 64) : Int := offset.toInt

/-- Whether an offset is illegal as an absolute stream offset (20_memory R42). -/
def negativeOffset (offset : BitVec 64) : Bool := decide (signedOffset offset < 0)

/-- The natural number a non-negative offset denotes; used only after `negativeOffset` said no (40_primitives R119). -/
def streamOffset (offset : BitVec 64) : Nat := (signedOffset offset).toNat

/-- `chunkIndex = offset div B` (41 R136 step 1). -/
def chunkIndex (cfg : Params) (offset : Nat) : Nat := offset / cfg.blockBytes

/-- `offset mod B` (41 R136 step 4). -/
def intraBlock (cfg : Params) (offset : Nat) : Nat := offset % cfg.blockBytes

/-- A byte count as a 64-bit unsigned value (00_scope R16). -/
def countField (n : Nat) : BitVec 64 := BitVec.ofNat 64 n

/-! ## Pseudo-instructions, exact expansions (30_encoding R94) -/

/-- `ENCRYPT <hex>` is `APPLY <hex>`. -/
def pseudoEncrypt (data : List Byte) : Instr := .apply data

/-- `DECRYPT <hex>` is `APPLY <hex>`. -/
def pseudoDecrypt (data : List Byte) : Instr := .apply data

/-- `KEYSTREAM <n>` is `APPLY` of `n` zero bytes. -/
def pseudoKeystream (n : Nat) : Instr := .apply (List.replicate n 0)

/-- `REWIND` is `SEEKTO 0`. -/
def pseudoRewind : Instr := .seekto 0

/-- `SEEKABS <n>` is `SEEK <n>, START`. -/
def pseudoSeekabs (offset : BitVec 64) : Instr := .seekStart offset

end Sys2Proof.Machine
end

