-- ==== Sys2Proof/Machine/Ops.lean ====
section
/-! DEFINITION. The named operations: the buffer's memory, the response and the fault, the four primitives of
40_primitives, the resource port's transactions, reset, and taking a command off the command port. -/

namespace Sys2Proof.Machine

/-! ## The buffer's memory (20_memory R41) -/

/-- What an index holds; an unlisted index holds no value (10_state R38, log 4). -/
def Memory.lookup : Memory → Nat → Option Byte
  | [], _ => none
  | (a, b) :: m, x => if a = x then some b else Memory.lookup m x

/-- Store one byte, keeping the addresses strictly rising. -/
def Memory.write : Memory → Nat → Byte → Memory
  | [], x, v => [(x, v)]
  | (a, b) :: m, x, v =>
    if x < a then (x, v) :: (a, b) :: m
    else if x = a then (x, v) :: m
    else (a, b) :: Memory.write m x v

/-- Forget the value an index holds. -/
def Memory.erase : Memory → Nat → Memory
  | [], _ => []
  | (a, b) :: m, x => if a = x then m else (a, b) :: Memory.erase m x

/-- Whether every listed address is above `lo`. -/
def Memory.allAbove (lo : Nat) : Memory → Bool
  | [] => true
  | (a, _) :: m => decide (lo < a) && Memory.allAbove lo m

/-- The canonical form: addresses strictly rising. (No entry can equal what an unlisted address reads as, which is no
value.) -/
def Memory.wf : Memory → Bool
  | [] => true
  | (a, _) :: m => Memory.allAbove a m && Memory.wf m

/-- Store bytes at consecutive indices (`MemWrite` of 00_scope R19). -/
def Memory.writeBytes : Memory → Nat → List Byte → Memory
  | m, _, [] => m
  | m, a, b :: bs => Memory.writeBytes (Memory.write m a b) (a + 1) bs

/-- `buf[dst] <- buf[src]`; an index that holds no value passes on no value (log 4). -/
def Memory.copyByte (m : Memory) (dst src : Nat) : Memory :=
  match Memory.lookup m src with
  | some b => Memory.write m dst b
  | none => Memory.erase m dst

/-- `buf[dst+i] <- buf[src+i]` for `i = 0 .. n-1` in increasing order (20_memory R41). -/
def Memory.copyUp : Memory → (dst src n : Nat) → Memory
  | m, _, _, 0 => m
  | m, dst, src, n + 1 => Memory.copyUp (Memory.copyByte m dst src) (dst + 1) (src + 1) n

/-- One byte of the buffer, as XORSTEP reads it: an index `>= C` does not exist, and an index that holds no value cannot
be read (log 4). -/
def readBuf (s : State) (a : Nat) : Except Fault Byte :=
  if a < capacity s.cfg then
    match Memory.lookup s.buf a with
    | some b => .ok b
    | none => .error .bufferUnwritten
  else .error .bufferIndexOutside

/-! ## Responses and faults (00_scope R19, 60_exceptions) -/

/-- Something crosses a port: the observer sees it (00_scope R9). -/
def State.emit (s : State) (e : PortEvent) : State := { s with trace := s.trace ++ [e] }

/-- `respond(status, rstat, value, payload)` (00_scope R19). -/
def State.respond (s : State) (status : Status) (rstat : BitVec 32) (value : BitVec 64) (payload : List Byte) : State :=
  s.emit (.response ⟨status, rstat, value, payload⟩)

/-- Taking a fault, `raise` (60 R209, R212): the response carries the fault's code, `rstat = 0`, `value = 0` and no
payload; nothing else changes; control goes nowhere. There is no return from a fault and nothing to restore (R213). -/
def State.raise (s : State) (status : Status) : State := s.respond status 0 0 []

/-- The response of SEEK and CLOSE on a resource without the capability (42 R157, R160; 60 R207): nothing done. -/
def State.unsupported (s : State) : State := s.respond .unsupported 0 0 []

/-- A response as it crosses a byte-wide channel (30_encoding R85): 13 bytes, most significant first, then the payload. -/
def Response.bytes (r : Response) : List Byte := tobe 13 r.word.toNat ++ r.payload

/-! ## Counter arithmetic (40_primitives R110 to R113) -/

/-- BEINC from the last byte, with the carry out of the first byte. -/
def beincCarry : List Byte → List Byte × Bool
  | [] => ([], true)
  | b :: bs =>
    match beincCarry bs with
    | (out, true) => ((b + 1) :: out, decide (b + 1 = 0))
    | (out, false) => (b :: out, false)

/-- BEINC (R110): add one, big-endian, wrapping silently. -/
def beinc (x : List Byte) : List Byte := (beincCarry x).1

/-- BEADD from the last byte: the sum bytes, the carry, and what is left of `n`. -/
def beaddCarry : List Byte → Nat → List Byte × Nat × Nat
  | [], n => ([], 0, n)
  | b :: bs, n =>
    match beaddCarry bs n with
    | (out, carry, m) =>
      let sum := b.toNat + m % 256 + carry
      (BitVec.ofNat 8 (sum % 256) :: out, sum / 256, m / 256)

/-- BEADD (R112): add a block count, big-endian; the final carry and any remaining count are dropped. -/
def beadd (x : List Byte) (n : Nat) : List Byte := (beaddCarry x n).1

/-! ## Refill (40_primitives R114 to R116) -/

/-- `E_K(x)`: the `B` bytes one encrypt request returns (00_scope R14, 20_memory R54). -/
def encryptBlock (E : Cipher) (cfg : Params) (key x : List Byte) : List Byte := (List.range cfg.blockBytes).map (E key x)

/-- REFILL's first part (R114): the unconsumed bytes move to the start. -/
def refillShift (s : State) : State :=
  { s with buf := Memory.copyUp s.buf 0 s.cur (s.len - s.cur), len := s.len - s.cur, cur := 0 }

/-- One turn of REFILL's loop (R114): encrypt the counter block into the next slot and increment the counter. -/
def refillBlock (E : Cipher) (s : State) : State :=
  { s with
    buf := Memory.writeBytes s.buf s.len (encryptBlock E s.cfg s.key s.ctr)
    len := s.len + s.cfg.blockBytes
    ctr := beinc s.ctr
    trace := s.trace ++ [.cipherEncrypt s.ctr] }

/-- REFILL's loop (R114, R116): whole blocks only, while one still fits; at most the given number of turns. -/
def refillLoop (E : Cipher) : Nat → State → State
  | 0, s => s
  | turns + 1, s => if s.len + s.cfg.blockBytes ≤ capacity s.cfg then refillLoop E turns (refillBlock E s) else s

/-- REFILL (R114). `C` turns are always enough: each stores at least one byte (log 13). -/
def refill (E : Cipher) (s : State) : State := refillLoop E (capacity s.cfg) (refillShift s)

/-! ## Keystream application (40_primitives R117, R118; 41 R133) -/

/-- Combine the source bytes with the buffer bytes from an index on. -/
def xorBytes (s : State) : Nat → List Byte → Except Fault (List Byte)
  | _, [] => .ok []
  | a, b :: bs =>
    match readBuf s a with
    | .error f => .error f
    | .ok k =>
      match xorBytes s (a + 1) bs with
      | .error f => .error f
      | .ok out => .ok ((b ^^^ k) :: out)

/-- The refill test of XORSTEP (R117): strictly fewer than `B` bytes unconsumed. -/
def refillIfLow (E : Cipher) (s : State) : State := if s.len - s.cur < s.cfg.blockBytes then refill E s else s

/-- XORSTEP (R117) on a destination of `dstLen` bytes: the bytes it writes to the destination (their number is the count
it returns) and the state it leaves. The ghost `pos` moves with `cur` (43_laws R170, R171; log 10). -/
def xorStep (E : Cipher) (dstLen : Nat) (src : List Byte) (s : State) : Except Fault (List Byte × State) :=
  if min dstLen src.length = 0 then .ok ([], s)
  else
    let s₁ := refillIfLow E s
    let n := min (min dstLen src.length) (s₁.len - s₁.cur)
    match xorBytes s₁ s₁.cur (src.take n) with
    | .error f => .error f
    | .ok out => .ok (out, { s₁ with cur := s₁.cur + n, pos := s₁.pos + n })

/-- The loop of 41 R133: XORSTEPs until the input is drained; at most the given number of them. -/
def applyLoop (E : Cipher) : Nat → List Byte → State → Except Fault (List Byte × State)
  | 0, _, s => .ok ([], s)
  | _ + 1, [], s => .ok ([], s)
  | steps + 1, b :: bs, s =>
    match xorStep E (b :: bs).length (b :: bs) s with
    | .error f => .error f
    | .ok (out, s₁) =>
      match applyLoop E steps ((b :: bs).drop out.length) s₁ with
      | .error f => .error f
      | .ok (rest, s₂) => .ok (out ++ rest, s₂)

/-- `APPLY_core(src)` of 42_adapter_commands: the whole loop. One XORSTEP per byte is always enough (40_primitives R118,
log 13). -/
def applyCore (E : Cipher) (src : List Byte) (s : State) : Except Fault (List Byte × State) := applyLoop E src.length src s

/-- `SEEKTO_core(offset)` (41 R136, steps 1 to 4): the stream seek-position-to-counter mapper. -/
def seekCore (E : Cipher) (offset : Nat) (s : State) : State :=
  let s₁ := refill E { s with ctr := beadd s.iv (chunkIndex s.cfg offset), len := 0, cur := 0 }
  { s₁ with cur := intraBlock s.cfg offset, pos := offset }

/-! ## The resource port (20_memory R55) -/

/-- Why a command ends without a response: a fault or a refusal of the model. -/
inductive Stop where
  | fault (f : Fault)
  | refusal (r : Refusal)
deriving DecidableEq, Repr

/-- A stop as an outcome of the step. -/
def Stop.outcome : Stop → Host.Outcome State Fault Refusal
  | .fault f => .fault f
  | .refusal r => .refused r

/-- One transaction of the resource port: the request is seen (00_scope R9), then the resource's next answer is taken, if the
contract admits it. Without an answer the core is stuck waiting (70 R242); what has been seen by then, the unanswered request
included, is in the stop (DEDUCED, log 18). -/
def askResource {α : Type} (request : PortEvent) (admits : ResAnswer → Option α) (s : State) : Except Stop (α × State) :=
  match s.resPort with
  | [] => .error (.fault (.resourceSilent (s.emit request).trace))
  | answer :: rest =>
    match admits answer with
    | some a => .ok (a, { s.emit request with resPort := rest })
    | none => .error (.refusal (.resourceOutsideContract (s.emit request).trace))

/-- The answers to `ResRead(len)`: `0 <= |d| <= len`. -/
def readAnswer (len : BitVec 64) : ResAnswer → Option (List Byte × BitVec 32)
  | .read d rstat => if d.length ≤ len.toNat then some (d, rstat) else none
  | .write _ _ => none
  | .seek _ _ => none
  | .close _ => none

/-- The answers to `ResWrite(d)`: `0 <= m <= |d|`. -/
def writeAnswer (d : List Byte) : ResAnswer → Option (Nat × BitVec 32)
  | .read _ _ => none
  | .write m rstat => if m ≤ d.length then some (m, rstat) else none
  | .seek _ _ => none
  | .close _ => none

/-- The answers to `ResSeek(o, w)`: any 64-bit position. -/
def seekAnswer : ResAnswer → Option (BitVec 64 × BitVec 32)
  | .read _ _ => none
  | .write _ _ => none
  | .seek a rstat => some (a, rstat)
  | .close _ => none

/-- The answers to `ResClose()`. -/
def closeAnswer : ResAnswer → Option (BitVec 32)
  | .read _ _ => none
  | .write _ _ => none
  | .seek _ _ => none
  | .close rstat => some rstat

/-- `ResRead(L)`. -/
def resRead (len : BitVec 64) (s : State) : Except Stop ((List Byte × BitVec 32) × State) :=
  askResource (.resRead len) (readAnswer len) s

/-- `ResWrite(d)`. -/
def resWrite (d : List Byte) (s : State) : Except Stop ((Nat × BitVec 32) × State) :=
  askResource (.resWrite d) (writeAnswer d) s

/-- `ResSeek(o, w)`. -/
def resSeek (offset : BitVec 64) (whence : Whence) (s : State) : Except Stop ((BitVec 64 × BitVec 32) × State) :=
  askResource (.resSeek offset whence) seekAnswer s

/-- `ResClose()`. -/
def resClose (s : State) : Except Stop (BitVec 32 × State) := askResource .resClose closeAnswer s

/-! ## Reset and the command port -/

/-- What reset leaves on the command port. The spec says only that a command in progress is abandoned (70 R231) and nothing
of bytes the core has not accepted. DESIGN CHOICE (log 9): the command at the front counts as in progress if only part of it
has arrived, and its bytes are dropped; where a whole command or an illegal header stands at the front the core has accepted
nothing, and every byte stays, a partly arrived command behind it included. -/
def portAfterReset (bytes : List Byte) : List Byte :=
  match decode bytes with
  | .noHeader => []
  | .noPayload => []
  | .illegal _ _ => bytes
  | .command _ _ => bytes

/-- Reset (70 R230): `constructed = 0`, `len = cur = 0`; `K`, `iv`, `ctr`, `pos` are fresh free values and the buffer holds
no value (10_state R38, log 9). No port request, the resource untouched, no response. -/
def takeReset (s : State) : State :=
  { s with
    constructed := false
    key := Config.resetKey s.resets
    iv := freeBlock s.cfg (Config.resetIvByte s.resets)
    ctr := freeBlock s.cfg (Config.resetCtrByte s.resets)
    buf := []
    len := 0
    cur := 0
    pos := Config.resetPos s.resets
    cmdPort := portAfterReset s.cmdPort
    resetLine := false
    resets := s.resets + 1 }

/-- The command the core would accept next (20_memory R56, 30_encoding R84). -/
def fetch (s : State) : Decoded := decode s.cmdPort

/-- The core has taken a command (or an illegal header) off the command port. -/
def State.withPort (s : State) (rest : List Byte) : State := { s with cmdPort := rest }

/-- An illegal header (60 R206): the fault, in either lifecycle state, and no payload consumed. -/
def illegalCommand (rest : List Byte) (s : State) : State := (s.withPort rest).raise .errIllegalCmd

/-- The bytes on the command port that make a table word's command the next one (log 14). -/
def withFetchBytes (bytes : List Byte) (s : State) : State := { s with cmdPort := bytes, resetLine := false }

end Sys2Proof.Machine
end

