-- ==== Sys2Proof/Machine/Adapter.lean ====
section
/-! DEFINITION. The adapter commands RD, WR, SEEK, CLOSE (42_adapter_commands). As in Generator.lean, each `run` function
has the block transform as an argument (log 17). -/

namespace Sys2Proof.Machine

/-- RD (R150, R151): the keystream over the bytes the resource returned, whatever its status. -/
def runRd (E : Cipher) (len : BitVec 64) (s : State) : Host.Outcome State Fault Refusal :=
  if s.constructed = false then .next (s.raise .errNotConstructed)
  else
    match resRead len s with
    | .error stop => stop.outcome
    | .ok ((d, rstat), s₁) =>
      match applyCore E d s₁ with
      | .error f => .fault f
      | .ok (out, s₂) => .next (s₂.respond (resourceStatus rstat) rstat (countField d.length) out)

/-- WR (R153, R154): all the data is encrypted first, then the resource is asked; nothing is rolled back. -/
def runWr (E : Cipher) (data : List Byte) (s : State) : Host.Outcome State Fault Refusal :=
  if s.constructed = false then .next (s.raise .errNotConstructed)
  else
    match applyCore E data s with
    | .error f => .fault f
    | .ok (scratch, s₁) =>
      match resWrite scratch s₁ with
      | .error stop => stop.outcome
      | .ok ((m, rstat), s₂) => .next (s₂.respond (resourceStatus rstat) rstat (countField m) [])

/-- SEEK (R156 to R158): the resource resolves offset and whence; only the position it returns reaches the seek mapper. -/
def runSeek (E : Cipher) (offset : BitVec 64) (whence : Whence) (s : State) : Host.Outcome State Fault Refusal :=
  if s.constructed = false then .next (s.raise .errNotConstructed)
  else if s.cfg.resCanSeek = false then .next s.unsupported
  else
    match resSeek offset whence s with
    | .error stop => stop.outcome
    | .ok ((a, rstat), s₁) =>
      if rstat ≠ 0 then .next (s₁.respond .resource rstat a [])
      else if negativeOffset a then .next (s₁.raise .errNegOffset)
      else .next ((seekCore E (streamOffset a) s₁).respond .ok 0 a [])

/-- CLOSE (R159, R160): the generator is not touched. -/
def runClose (s : State) : Host.Outcome State Fault Refusal :=
  if s.constructed = false then .next (s.raise .errNotConstructed)
  else if s.cfg.resCanClose = false then .next s.unsupported
  else
    match resClose s with
    | .error stop => stop.outcome
    | .ok (rstat, s₁) => .next (s₁.respond (resourceStatus rstat) rstat 0 [])

/-- The meaning of RD. -/
def execRd (len : BitVec 64) (s : State) : Host.Outcome State Fault Refusal := runRd Config.encryptByte len s

/-- The meaning of WR. -/
def execWr (data : List Byte) (s : State) : Host.Outcome State Fault Refusal := runWr Config.encryptByte data s

/-- The meaning of SEEK with whence START. -/
def execSeekStart (offset : BitVec 64) (s : State) : Host.Outcome State Fault Refusal :=
  runSeek Config.encryptByte offset .start s

/-- The meaning of SEEK with whence CUR. -/
def execSeekCur (offset : BitVec 64) (s : State) : Host.Outcome State Fault Refusal :=
  runSeek Config.encryptByte offset .cur s

/-- The meaning of SEEK with whence END. -/
def execSeekEnd (offset : BitVec 64) (s : State) : Host.Outcome State Fault Refusal :=
  runSeek Config.encryptByte offset .fromEnd s

/-- The meaning of CLOSE. -/
def execClose (s : State) : Host.Outcome State Fault Refusal := runClose s

end Sys2Proof.Machine
end

