-- ==== Sys2Proof/Machine/Generator.lean ====
section
/-! DEFINITION. The generator commands INIT, APPLY, SEEKTO (41_generator_commands). Each `run` function has the block
transform as an argument; the meaning is that function at the transform of the machine at hand (log 17). -/

namespace Sys2Proof.Machine

/-- INIT (R130 to R132): the checks in order (R131), then the registers. A refused INIT makes no cipher request (60 R212);
the key load is seen on the cipher port when the INIT completes, which is when the cipher keys itself (20_memory R54).
DEDUCED, log 8. -/
def runInit (key iv : List Byte) (s : State) : State :=
  if s.constructed then s.raise .errAlreadyConstructed
  else if keyAccepted s.cfg key = false then s.raise .errInvalidKeyLength
  else if iv.length ≠ s.cfg.blockBytes then s.raise .errInvalidIvLength
  else
    State.respond { s.emit (.cipherKeyLoad key) with
      key := key, iv := iv, ctr := iv, len := 0, cur := 0, constructed := true, pos := 0 } .ok 0 0 []

/-- APPLY (R133 to R135). -/
def runApply (E : Cipher) (data : List Byte) (s : State) : Host.Outcome State Fault Refusal :=
  if s.constructed = false then .next (s.raise .errNotConstructed)
  else
    match applyCore E data s with
    | .error f => .fault f
    | .ok (dst, s₁) => .next (s₁.respond .ok 0 (countField data.length) dst)

/-- SEEKTO (R136 to R138). -/
def runSeekto (E : Cipher) (offset : BitVec 64) (s : State) : State :=
  if s.constructed = false then s.raise .errNotConstructed
  else if negativeOffset offset then s.raise .errNegOffset
  else (seekCore E (streamOffset offset) s).respond .ok 0 offset []

/-- The meaning of INIT. -/
def execInit (key iv : List Byte) (s : State) : Host.Outcome State Fault Refusal := .next (runInit key iv s)

/-- The meaning of APPLY. -/
def execApply (data : List Byte) (s : State) : Host.Outcome State Fault Refusal := runApply Config.encryptByte data s

/-- The meaning of SEEKTO. -/
def execSeekto (offset : BitVec 64) (s : State) : Host.Outcome State Fault Refusal :=
  .next (runSeekto Config.encryptByte offset s)

end Sys2Proof.Machine
end

