-- ==== Sys2Proof/Machine/Dispatch.lean ====
section
/-! DEFINITION. One arm per command, each a direct call of its meaning. -/

namespace Sys2Proof.Machine

def exec (i : Instr) (s : State) : Host.Outcome State Fault Refusal :=
  match i with
  | .init key iv => Sys2Proof.Machine.execInit key iv s
  | .apply data => Sys2Proof.Machine.execApply data s
  | .seekto offset => Sys2Proof.Machine.execSeekto offset s
  | .rd len => Sys2Proof.Machine.execRd len s
  | .wr data => Sys2Proof.Machine.execWr data s
  | .seekStart offset => Sys2Proof.Machine.execSeekStart offset s
  | .seekCur offset => Sys2Proof.Machine.execSeekCur offset s
  | .seekEnd offset => Sys2Proof.Machine.execSeekEnd offset s
  | .close => Sys2Proof.Machine.execClose s

end Sys2Proof.Machine
end

