-- ==== Sys2Proof/Machine/Step.lean ====
section
/-! DEFINITION. One step: reset if the host has applied it, else one whole command, else nothing (00_scope R6, 20_memory
R56, 60 R211, R220, 70 R230, R231). -/

namespace Sys2Proof.Machine

/-- The step. Decoding comes first (60 R211); a core without a whole command holds its state (60 R220, log 5). -/
def step (s : State) : Host.Outcome State Fault Refusal :=
  if s.resetLine then .next (takeReset s)
  else
    match fetch s with
    | .noHeader => .next s
    | .noPayload => .next s
    | .illegal _ rest => .next (illegalCommand rest s)
    | .command i rest => exec i (s.withPort rest)

/-- The state with a table word's command, and nothing else, on the command port (log 14). -/
def State.withFetchWord (s : State) (nbits w : Nat) : State := withFetchBytes (tableWordBytes nbits w) s

end Sys2Proof.Machine
end

