-- ==== Sys2Proof/Safety.lean ====
section
/-! DEFINITION. The words claims about the machine use: the keystream function, the invariants of 43_laws, what an
observer sees, and which states are the same stream. None of it is used by the machine. -/

namespace Sys2Proof.Machine

/-! ## The keystream (20_memory R44) -/

/-- `2^W`, the number of counter values (20_memory R43). -/
def counterValues (cfg : Params) : Nat := 2 ^ counterBits cfg

/-- The counter block of the block with index `j`: `tobe_B((be(iv) + j) mod 2^W)` (20_memory R44). -/
def counterBlock (cfg : Params) (iv : List Byte) (j : Nat) : List Byte :=
  tobe cfg.blockBytes ((be iv + j) % counterValues cfg)

/-- `KS(n)` for a key and an IV (20_memory R44). -/
def keystream (E : Cipher) (cfg : Params) (key iv : List Byte) (n : Nat) : Byte :=
  E key (counterBlock cfg iv (n / cfg.blockBytes)) (n % cfg.blockBytes)

/-- `KS(n)` of an instance. -/
def State.ks (E : Cipher) (s : State) (n : Nat) : Byte := keystream E s.cfg s.key s.iv n

/-- `data[i] xor KS(n + i)` for every `i`, with the keystream of an instance (43_laws R174). -/
def State.streamXor (E : Cipher) (s : State) (n : Nat) (data : List Byte) : List Byte :=
  data.mapIdx fun i b => b ^^^ s.ks E (n + i)

/-! ## Invariants (10_state R36, 43_laws R170 to R172) -/

/-- `avail = len - cur` (10_state R28). -/
def State.avail (s : State) : Nat := s.len - s.cur

/-- The index of the first block not yet in the buffer (43_laws R171). -/
def State.nextBlock (s : State) : Nat := (s.pos + s.avail) / s.cfg.blockBytes

/-- The size invariants (10_state R36, 43_laws R172) and the canonical form of the buffer's memory. -/
structure SizesOk (s : State) : Prop where
  canonical : Memory.wf s.buf = true
  inside : ∀ a, capacity s.cfg ≤ a → Memory.lookup s.buf a = none
  iv_length : s.iv.length = s.cfg.blockBytes
  ctr_length : s.ctr.length = s.cfg.blockBytes
  cur_le_len : s.cur ≤ s.len
  len_le_capacity : s.len ≤ capacity s.cfg

/-- What holds of a constructed instance (43_laws R170 to R172). -/
structure StreamOk (E : Cipher) (s : State) : Prop where
  key_accepted : keyAccepted s.cfg s.key = true
  aligned : (s.pos + s.avail) % s.cfg.blockBytes = 0
  counter : be s.ctr = (be s.iv + s.nextBlock) % counterValues s.cfg
  content : ∀ i, i < s.avail → Memory.lookup s.buf (s.cur + i) = some (s.ks E (s.pos + i))
  filled : s.len = 0 ∨ capacity s.cfg - s.cfg.blockBytes < s.len

/-- The invariant of the machine, in either lifecycle state (10_state R38, 43_laws section 1). -/
structure Inv (E : Cipher) (s : State) : Prop where
  sizes : SizesOk s
  unconstructed_empty : s.constructed = false → s.len = 0 ∧ s.cur = 0
  stream : s.constructed = true → StreamOk E s

/-- Every unconsumed buffer byte can be read: what XORSTEP needs (20_memory R41). -/
def Readable (s : State) : Prop :=
  s.len ≤ capacity s.cfg ∧ ∀ i, i < s.avail → ∃ b, Memory.lookup s.buf (s.cur + i) = some b

/-! ## What an observer sees (00_scope R9) -/

/-- The response in an event, if it is one. -/
def PortEvent.response? : PortEvent → Option Response
  | .response r => some r
  | _ => none

/-- The block of an encrypt request. -/
def PortEvent.encrypt? : PortEvent → Option (List Byte)
  | .cipherEncrypt x => some x
  | _ => none

/-- Whether an event is a resource-port request. -/
def PortEvent.isResource : PortEvent → Bool
  | .resRead _ => true
  | .resWrite _ => true
  | .resSeek _ _ => true
  | .resClose => true
  | _ => false

/-- The responses of a trace, in order. -/
def responses (trace : List PortEvent) : List Response := trace.filterMap PortEvent.response?

/-- The encrypt requests of a trace, in order (43_laws R181). -/
def encryptRequests (trace : List PortEvent) : List (List Byte) := trace.filterMap PortEvent.encrypt?

/-- The resource-port requests of a trace, in order. -/
def resourceRequests (trace : List PortEvent) : List PortEvent := trace.filter PortEvent.isResource

/-- A trace without its encrypt requests: what two instances that differ only in `CFG_BUF` share (43_laws R179). -/
def withoutEncrypts (trace : List PortEvent) : List PortEvent := trace.filter fun e => e.encrypt?.isNone

/-- A stop of the model without the encrypt requests seen before it (43_laws R179). -/
def Fault.withoutEncrypts : Fault → Fault
  | .resourceSilent seen => .resourceSilent (Machine.withoutEncrypts seen)
  | .bufferIndexOutside => .bufferIndexOutside
  | .bufferUnwritten => .bufferUnwritten

/-- A refusal without the encrypt requests seen before it (43_laws R179). -/
def Refusal.withoutEncrypts : Refusal → Refusal
  | .resourceOutsideContract seen => .resourceOutsideContract (Machine.withoutEncrypts seen)
  | other => other

/-! ## Which parts of the state a command leaves alone -/

/-- Nothing outside the generator has changed but the trace and the resource's answers: the static parameters, the
command port, the reset line and the reset count (10_state R33, 20_memory R56). -/
def SameHost (s t : State) : Prop :=
  t.cfg = s.cfg ∧ t.cmdPort = s.cmdPort ∧ t.resetLine = s.resetLine ∧ t.resets = s.resets

/-- The identity of the stream has not changed: lifecycle, key and IV (10_state R21, R22, R27). -/
def SameIdentity (s t : State) : Prop := t.constructed = s.constructed ∧ t.key = s.key ∧ t.iv = s.iv

/-- The generator has not changed: the tuple of 10_state R20 and the ghost. -/
def SameGenerator (s t : State) : Prop :=
  SameIdentity s t ∧ t.ctr = s.ctr ∧ t.buf = s.buf ∧ t.len = s.len ∧ t.cur = s.cur ∧ t.pos = s.pos

/-- Every buffer index that does not exist reads as before: REFILL stores below `C` only (20_memory R41). -/
def SameOutsideBuffer (s t : State) : Prop :=
  ∀ a, capacity s.cfg ≤ a → Memory.lookup t.buf a = Memory.lookup s.buf a

/-! ## Same stream, different lookahead (43_laws R179) -/

/-- Two instances that differ at most in `CFG_BUF`, in the lookahead state `(ctr, buf, len, cur)` and in the encrypt
requests made so far. -/
structure SameStream (E : Cipher) (s t : State) : Prop where
  left_inv : Inv E s
  right_inv : Inv E t
  blockBytes : t.cfg.blockBytes = s.cfg.blockBytes
  keyLens : t.cfg.keyLens = s.cfg.keyLens
  canSeek : t.cfg.resCanSeek = s.cfg.resCanSeek
  canClose : t.cfg.resCanClose = s.cfg.resCanClose
  identity : SameIdentity s t
  pos : t.pos = s.pos
  cmdPort : t.cmdPort = s.cmdPort
  resPort : t.resPort = s.resPort
  resetLine : t.resetLine = s.resetLine
  resets : t.resets = s.resets
  observed : withoutEncrypts t.trace = withoutEncrypts s.trace

/-! ## Sequences of commands (20_memory R57) -/

/-- The commands one after another, each from the state its predecessor left. -/
def execAll : List Instr → State → Host.Outcome State Fault Refusal
  | [], s => .next s
  | i :: is, s =>
    match exec i s with
    | .next t => execAll is t
    | .fault f => .fault f
    | .refused r => .refused r

/-- The response to the last command, if there was one. -/
def lastResponse (s : State) : Option Response := (responses s.trace).getLast?

/-- The payload of the last response. -/
def lastOutput (s : State) : List Byte := ((lastResponse s).map Response.payload).getD []

/-- The SEEK command with a whence (30_encoding R88: one instruction, three forms). -/
def seekInstr (whence : Whence) (offset : BitVec 64) : Instr :=
  match whence with
  | .start => .seekStart offset
  | .cur => .seekCur offset
  | .fromEnd => .seekEnd offset

/-- The command repositions the generator to stream offset `o`: a SEEKTO with a legal offset, or a SEEK that the resource
resolves to a legal position (43_laws R173). -/
def SeeksTo (s : State) (o : Nat) (i : Instr) : Prop :=
  (∃ offset, i = .seekto offset ∧ negativeOffset offset = false ∧ streamOffset offset = o) ∨
  (∃ whence offset a rest, i = seekInstr whence offset ∧ s.cfg.resCanSeek = true ∧ s.resPort = .seek a 0 :: rest ∧
    negativeOffset a = false ∧ streamOffset a = o)

/-- The generator of `t` is the generator of `s` repositioned to stream offset `o` (41 R136): the counter past the `C div B`
blocks from the one holding `o`, those blocks in the buffer, the cursor inside the first; everything at or above the new
length, and everything outside the generator but the ports, as before. -/
structure Repositioned (E : Cipher) (s t : State) (o : Nat) : Prop where
  ctr_length : t.ctr.length = s.cfg.blockBytes
  counter : be t.ctr = (be s.iv + o / s.cfg.blockBytes + capacity s.cfg / s.cfg.blockBytes) % counterValues s.cfg
  len : t.len = capacity s.cfg / s.cfg.blockBytes * s.cfg.blockBytes
  cur : t.cur = o % s.cfg.blockBytes
  pos : t.pos = o
  content : ∀ i, i < t.len → Memory.lookup t.buf i = some (s.ks E (o / s.cfg.blockBytes * s.cfg.blockBytes + i))
  above : ∀ a, t.len ≤ a → Memory.lookup t.buf a = Memory.lookup s.buf a
  host : SameHost s t
  identity : SameIdentity s t

/-- The encrypt requests of a repositioning to offset `o`: `C div B` blocks from the one that holds it (41 R136). -/
def repositionRequests (s : State) (o : Nat) : List PortEvent :=
  (List.range (capacity s.cfg / s.cfg.blockBytes)).map fun j =>
    .cipherEncrypt (counterBlock s.cfg s.iv (o / s.cfg.blockBytes + j))

/-- The statuses a command may respond with (41, 42; 60 R201 to R208). -/
def allowedStatuses : Instr → List Status
  | .init _ _ => [.ok, .errAlreadyConstructed, .errInvalidKeyLength, .errInvalidIvLength]
  | .apply _ => [.ok, .errNotConstructed]
  | .seekto _ => [.ok, .errNotConstructed, .errNegOffset]
  | .rd _ => [.ok, .resource, .errNotConstructed]
  | .wr _ => [.ok, .resource, .errNotConstructed]
  | .seekStart _ => [.ok, .resource, .unsupported, .errNotConstructed, .errNegOffset]
  | .seekCur _ => [.ok, .resource, .unsupported, .errNotConstructed, .errNegOffset]
  | .seekEnd _ => [.ok, .resource, .unsupported, .errNotConstructed, .errNegOffset]
  | .close => [.ok, .resource, .unsupported, .errNotConstructed]

/-- Whether a command that gives this status carries output bytes in its response (30_encoding R85). -/
def carriesOutput (i : Instr) (status : Status) : Bool :=
  match i with
  | .init _ _ => false
  | .apply _ => status == .ok
  | .seekto _ => false
  | .rd _ => status == .ok || status == .resource
  | .wr _ => false
  | .seekStart _ => false
  | .seekCur _ => false
  | .seekEnd _ => false
  | .close => false

/-- Whether a command may use the resource port (42; 20_memory R55). -/
def usesResource : Instr → Bool
  | .init _ _ => false
  | .apply _ => false
  | .seekto _ => false
  | .rd _ => true
  | .wr _ => true
  | .seekStart _ => true
  | .seekCur _ => true
  | .seekEnd _ => true
  | .close => true

/-- A header that 30_encoding R89 lists as illegal. -/
def IllegalHeader (h : BitVec 80) : Prop :=
  headerOp h ∉ [0x01, 0x02, 0x03, 0x10, 0x11, 0x12, 0x13] ∨
  (headerSub h ≠ 0 ∧ headerOp h ∈ [0x01, 0x02, 0x03, 0x10, 0x11, 0x13]) ∨
  (3 ≤ (headerSub h).toNat ∧ headerOp h = 0x12) ∨
  (headerArg h ≠ 0 ∧ headerOp h = 0x13)

/-- The mnemonic of the row a decoded header belongs to (30_encoding R88). -/
def headerMnemonic : Header → String
  | .init _ _ => "INIT"
  | .apply _ => "APPLY"
  | .seekto _ => "SEEKTO"
  | .rd _ => "RD"
  | .wr _ => "WR"
  | .seekStart _ => "SEEK.START"
  | .seekCur _ => "SEEK.CUR"
  | .seekEnd _ => "SEEK.END"
  | .close => "CLOSE"

/-- Whether a command is INIT, the only one that may write the identity (10_state R21, R22, R27). -/
def isInit : Instr → Bool
  | .init _ _ => true
  | .apply _ => false
  | .seekto _ => false
  | .rd _ => false
  | .wr _ => false
  | .seekStart _ => false
  | .seekCur _ => false
  | .seekEnd _ => false
  | .close => false

/-! ## The resource's position (10_state R37, 42 R161) -/

/-- Where a resource that advances by exactly the counts it reports stands after an answer (42 R161): a failed seek leaves
it anywhere, so it says nothing of that. -/
def resourcePositionAfter (rpos : Nat) : ResAnswer → Option Nat
  | .read d _ => some (rpos + d.length)
  | .write m _ => some (rpos + m)
  | .seek a rstat => if rstat = 0 ∧ negativeOffset a = false then some (streamOffset a) else none
  | .close _ => some rpos

end Sys2Proof.Machine
end

