-- ==== Sys2Proof/Certificates/Slice0/Obligations.lean ====
section
/-! DEFINITION. Statements for the provers, from the numbered rules of spec/. -/

open Sys2Proof Sys2Proof.Machine

/-! ### Encoding (30_encoding) -/

/-- R81's example is serialised as the spec says, and the ten headers V100 to V109 of 95_test_vectors decode to the commands
the spec says. -/
def Obligations.SampleHeadersDecode : Prop :=
  headerBytes 0x03000000000000000005 = [0x03, 0, 0, 0, 0, 0, 0, 0, 0, 0x05] ∧
  decodeHeader 0x01000000001000000010 = .ok (.init 16 16) ∧
  decodeHeader 0x02000000000000000014 = .ok (.apply 20) ∧
  decodeHeader 0x0300FFFFFFFFFFFFFFFF = .ok (.seekto (-1)) ∧
  decodeHeader 0x03007FFFFFFFFFFFFFFF = .ok (.seekto 9223372036854775807) ∧
  decodeHeader 0x10000000000000000010 = .ok (.rd 16) ∧
  decodeHeader 0x1100000000000000000C = .ok (.wr 12) ∧
  decodeHeader 0x12000000000000000007 = .ok (.seekStart 7) ∧
  decodeHeader 0x1201FFFFFFFFFFFFFFFB = .ok (.seekCur (-5)) ∧
  decodeHeader 0x1202FFFFFFFFFFFFFFF4 = .ok (.seekEnd (-12)) ∧
  decodeHeader 0x13000000000000000000 = .ok .close

/-- R92: the decoder, written from the fields, accepts exactly the headers that a row of R88 selects, and as that row. -/
def Obligations.DecoderAgreesWithOpcodeMap : Prop :=
  ∀ h : BitVec 80,
    (∀ hd, decodeHeader h = .ok hd → ∃ r ∈ opcodeRows, r.selects h = true ∧ r.mnemonic = headerMnemonic hd) ∧
    (∀ r ∈ opcodeRows, r.selects h = true → ∃ hd, decodeHeader h = .ok hd ∧ headerMnemonic hd = r.mnemonic)

/-- R88: the nine rows are pairwise disjoint. -/
def Obligations.OpcodeRowsDisjoint : Prop :=
  opcodeRows.length = 9 ∧
  ∀ h : BitVec 80, ∀ r ∈ opcodeRows, ∀ r' ∈ opcodeRows, r.selects h = true → r'.selects h = true → r = r'

/-- R80 to R84: a well-formed command, serialised and followed by anything, decodes to itself and leaves what follows. -/
def Obligations.DecodeOfEncode : Prop :=
  ∀ (i : Instr) (rest : List Byte), i.wf = true → decode (encode i ++ rest) = .command i rest

/-- R80 to R84: whatever decodes to a command is that command's serialised form and what follows; the command is
well-formed. -/
def Obligations.EncodeOfDecode : Prop :=
  ∀ (bytes : List Byte) (i : Instr) (rest : List Byte), decode bytes = .command i rest →
    i.wf = true ∧ bytes = encode i ++ rest

/-- R89, R206: the illegal headers are those no row selects; a step that meets one answers ERR_ILLEGAL_CMD in either
lifecycle state, takes only the header off the port, and changes nothing else. -/
def Obligations.IllegalHeadersFault : Prop :=
  Status.errIllegalCmd.code = 0x06 ∧
  (∀ h : BitVec 80, IllegalHeader h ↔ ∀ r ∈ opcodeRows, r.selects h = false) ∧
  ∀ (h : BitVec 80) (rest : List Byte) (s : State), IllegalHeader h → s.resetLine = false →
    s.cmdPort = headerBytes h ++ rest →
    step s = .next { s with cmdPort := rest, trace := s.trace ++ [.response ⟨.errIllegalCmd, 0, 0, []⟩] }

/-- R85, R86: response words V130 to V141 of 95_test_vectors. -/
def Obligations.SampleResponseWords : Prop :=
  (Response.mk .ok 0 20 []).word = 0x00000000000000000000000014 ∧
  (Response.mk .errInvalidKeyLength 0 0 []).word = 0x01000000000000000000000000 ∧
  (Response.mk .errInvalidIvLength 0 0 []).word = 0x02000000000000000000000000 ∧
  (Response.mk .errNegOffset 0 0 []).word = 0x03000000000000000000000000 ∧
  (Response.mk .errNotConstructed 0 0 []).word = 0x04000000000000000000000000 ∧
  (Response.mk .errAlreadyConstructed 0 0 []).word = 0x05000000000000000000000000 ∧
  (Response.mk .errIllegalCmd 0 0 []).word = 0x06000000000000000000000000 ∧
  (Response.mk .unsupported 0 0 []).word = 0x07000000000000000000000000 ∧
  (Response.mk .resource 1 5 []).word = 0x08000000010000000000000005 ∧
  (Response.mk .resource 2 5 [0xAA]).bytes = [0x08, 0, 0, 0, 2, 0, 0, 0, 0, 0, 0, 0, 5, 0xAA]

/-! ### The step, reset and lifecycle (10_state, 60_exceptions, 70_reset_and_hazards) -/

/-- R56, R92: when the bytes on the command port decode to a well-formed command, the step is that command's meaning on
the state with exactly the command's bytes taken off the port. -/
def Obligations.StepRunsDecodedCommand : Prop :=
  ∀ (s : State) (i : Instr) (rest : List Byte), s.resetLine = false → decode s.cmdPort = .command i rest →
    i.wf = true → step s = exec i { s with cmdPort := rest }

/-- R220: an idle core holds its state for any length of time. -/
def Obligations.IdleCoreHoldsState : Prop :=
  ∀ (s : State) (n : Nat), s.resetLine = false → s.cmdPort = [] → Host.Core.run core n s = .next s

/-- The model's choice (log 5): while part of a command is missing on the port the core waits, its state unchanged. -/
def Obligations.IncompleteCommandWaits : Prop :=
  ∀ s : State, s.resetLine = false → (decode s.cmdPort = .noHeader ∨ decode s.cmdPort = .noPayload) → step s = .next s

/-- R38, R230: the reset state is unconstructed with an empty buffer. That no buffer byte holds a value and that the ports
are empty is the model's choice (log 4, 5, 6). -/
def Obligations.ResetStateIsUnconstructed : Prop :=
  State.reset.constructed = false ∧ State.reset.len = 0 ∧ State.reset.cur = 0 ∧
  State.reset.iv.length = State.reset.cfg.blockBytes ∧ State.reset.ctr.length = State.reset.cfg.blockBytes ∧
  (∀ a, Memory.lookup State.reset.buf a = none) ∧ State.reset.cmdPort = [] ∧ State.reset.resPort = [] ∧
  State.reset.trace = []

/-- R230: reset puts the instance in the reset state, does not touch the resource, makes no port request, and answers
nothing. What it leaves on the command port, that the reset input is then acted on, and the reset count are the model's choice
(log 9). -/
def Obligations.ResetStepUnconstructs : Prop :=
  ∀ s : State, s.resetLine = true → ∃ t, step s = .next t ∧
    t.constructed = false ∧ t.len = 0 ∧ t.cur = 0 ∧ t.iv.length = s.cfg.blockBytes ∧ t.ctr.length = s.cfg.blockBytes ∧
    t.cfg = s.cfg ∧ t.resPort = s.resPort ∧ t.trace = s.trace ∧
    t.cmdPort = portAfterReset s.cmdPort ∧ t.resetLine = false ∧ t.resets = s.resets + 1

/-- R215, R230: UNCONSTRUCTED is left only by a successful INIT, READY only by reset. -/
def Obligations.LifecycleEdges : Prop :=
  ∀ s t : State, step s = .next t →
    (s.constructed = true → t.constructed = false → s.resetLine = true) ∧
    (s.constructed = false → t.constructed = true → ∃ key iv rest,
      fetch s = .command (.init key iv) rest ∧ key.length ∈ s.cfg.keyLens ∧ iv.length = s.cfg.blockBytes)

/-- R38, R204: while unconstructed no command can observe `K`, `iv`, `ctr`, `buf` (or the ghost): other values give the
same responses and port requests, and after a successful INIT nothing but the unread buffer memory can differ. -/
def Obligations.UnconstructedRegistersUnobservable : Prop :=
  ∀ (i : Instr) (s t : State) (key iv ctr : List Byte) (buf : Memory) (pos : Nat),
    s.constructed = false → exec i s = .next t →
    ∃ t', exec i { s with key := key, iv := iv, ctr := ctr, buf := buf, pos := pos } = .next t' ∧
      t'.trace = t.trace ∧ t'.constructed = t.constructed ∧ (t.constructed = true → t' = { t with buf := buf })

/-- R33, R233: no step changes a static parameter. -/
def Obligations.StaticParametersNeverChange : Prop :=
  ∀ s t : State, step s = .next t → t.cfg = s.cfg

/-- The reset state meets the invariant. -/
def Obligations.ResetStateMeetsInv : Prop := Inv Config.encryptByte State.reset

/-- R36, R170 to R172: every step keeps the invariant: the buffer's memory in canonical form and inside `C`, the sizes,
and, once constructed, the counter register's and the buffer's content. -/
def Obligations.StepKeepsInv : Prop :=
  ∀ s t : State, Inv Config.encryptByte s → step s = .next t → Inv Config.encryptByte t

/-- R24, R41: from a state that meets the invariant no step ever reads a buffer byte that holds no value or does not
exist. -/
def Obligations.BufferNeverMisread : Prop :=
  ∀ s : State, Inv Config.encryptByte s →
    step s ≠ .fault .bufferUnwritten ∧ step s ≠ .fault .bufferIndexOutside

/-! ### What every command leaves alone -/

/-- R20, R22, R27, R33, R41: no command changes a static parameter, the command port, the reset line, or a buffer index
`>= C`, and what was observed stays observed; only INIT writes the lifecycle bit, the key and the IV; only the adapter
commands take an answer off the resource port, at most one; INIT leaves the whole buffer memory, CLOSE the whole
generator. -/
def Obligations.CommandFrames : Prop :=
  ∀ (i : Instr) (s t : State), exec i s = .next t →
    SameHost s t ∧ SameOutsideBuffer s t ∧ (∃ events, t.trace = s.trace ++ events) ∧
    (isInit i = false → SameIdentity s t) ∧
    (usesResource i = false → t.resPort = s.resPort) ∧
    (t.resPort = s.resPort ∨ ∃ a, s.resPort = a :: t.resPort) ∧
    (isInit i = true → t.buf = s.buf) ∧
    (i = .close → SameGenerator s t)

/-- R85: every command gives exactly one response, the last thing it does; only APPLY with OK and RD with OK or RESOURCE
carry a payload, of `value` bytes. -/
def Obligations.OneResponsePerCommand : Prop :=
  ∀ (i : Instr) (s t : State), i.wf = true → exec i s = .next t →
    ∃ events r, t.trace = s.trace ++ events ++ [.response r] ∧ responses events = [] ∧
      (carriesOutput i r.status = true → r.payload.length = r.value.toNat) ∧
      (carriesOutput i r.status = false → r.payload = [])

/-- R132, R201 to R208: which statuses each command can respond with; in particular the two construction errors come from
INIT only. -/
def Obligations.StatusesEachCommandCanGive : Prop :=
  ∀ (i : Instr) (s t : State) (r : Response), exec i s = .next t → lastResponse t = some r →
    r.status ∈ allowedStatuses i

/-- R209, R212: a step that takes a fault records nothing but its code and leaves the generator as it was, with no port
request but for the one ResSeek of an ERR_NEG_OFFSET raised by SEEK; the header and the payload, if there is one, are off the
command port. -/
def Obligations.FaultsChangeNothing : Prop :=
  ∀ (s t : State) (events : List PortEvent) (r : Response), s.resetLine = false → step s = .next t →
    t.trace = s.trace ++ events ++ [.response r] → r.status.isFault = true →
    r.rstat = 0 ∧ r.value = 0 ∧ r.payload = [] ∧ SameGenerator s t ∧
    t.cfg = s.cfg ∧ t.resetLine = s.resetLine ∧ t.resets = s.resets ∧
    ((∃ i, decode s.cmdPort = .command i t.cmdPort) ∨ ∃ why, decode s.cmdPort = .illegal why t.cmdPort) ∧
    ((events = [] ∧ t.resPort = s.resPort) ∨
      (r.status = .errNegOffset ∧ ∃ whence offset a,
        decode s.cmdPort = .command (seekInstr whence offset) t.cmdPort ∧ s.resPort = .seek a 0 :: t.resPort ∧
        a.toInt < 0 ∧ events = [.resSeek offset whence]))

/-- R213: nothing is sticky: what a command does, and what it adds to the trace, does not depend on what was observed
before. -/
def Obligations.NothingReadsTheTrace : Prop :=
  ∀ (i : Instr) (s t : State), exec i s = .next t → ∃ events, t.trace = s.trace ++ events ∧
    ∀ earlier, exec i { s with trace := earlier } = .next { t with trace := earlier ++ events }

/-- R29: no rule's hardware effect reads the ghost position. -/
def Obligations.NothingReadsTheGhost : Prop :=
  ∀ (i : Instr) (s t : State) (p : Nat), exec i s = .next t → ∃ q, exec i { s with pos := p } = .next { t with pos := q }

/-- R24: buffer bytes outside `buf[cur..len)` never influence anything: another memory with the same unconsumed bytes gives
the same next state but for its own stale bytes. -/
def Obligations.StaleBytesNeverMatter : Prop :=
  ∀ (i : Instr) (s t : State) (m : Memory), Memory.wf s.buf = true → Memory.wf m = true →
    (∀ j, j < s.avail → Memory.lookup m (s.cur + j) = Memory.lookup s.buf (s.cur + j)) → exec i s = .next t →
    ∃ m', exec i { s with buf := m } = .next { t with buf := m' } ∧
      ∀ j, j < t.avail → Memory.lookup m' (t.cur + j) = Memory.lookup t.buf (t.cur + j)

/-- R204: before INIT every other command is refused with ERR_NOT_CONSTRUCTED, with no port request and no change. -/
def Obligations.OtherCommandsNeedInit : Prop :=
  Status.errNotConstructed.code = 0x04 ∧
  ∀ (i : Instr) (s : State), s.constructed = false → isInit i = false →
    exec i s = .next { s with trace := s.trace ++ [.response ⟨.errNotConstructed, 0, 0, []⟩] }

/-! ### INIT (41 R130 to R132) -/

/-- R39, R130: a successful INIT. -/
def Obligations.InitConstructs : Prop :=
  ∀ (s : State) (key iv : List Byte), s.constructed = false → key.length ∈ s.cfg.keyLens →
    iv.length = s.cfg.blockBytes →
    exec (.init key iv) s = .next { s with
      constructed := true, key := key, iv := iv, ctr := iv, len := 0, cur := 0, pos := 0
      trace := s.trace ++ [.cipherKeyLoad key, .response ⟨.ok, 0, 0, []⟩] }

/-- R131, R132, R201, R202, R205, R212: the refusals of INIT in their order; nothing changes and no cipher request is made.
R130 and R54 can be read to show the key load on the cipher port all the same: log 8. -/
def Obligations.InitRefusals : Prop :=
  ∀ (s : State) (key iv : List Byte),
    (s.constructed = true →
      exec (.init key iv) s = .next { s with trace := s.trace ++ [.response ⟨.errAlreadyConstructed, 0, 0, []⟩] }) ∧
    (s.constructed = false → key.length ∉ s.cfg.keyLens →
      exec (.init key iv) s = .next { s with trace := s.trace ++ [.response ⟨.errInvalidKeyLength, 0, 0, []⟩] }) ∧
    (s.constructed = false → key.length ∈ s.cfg.keyLens → iv.length ≠ s.cfg.blockBytes →
      exec (.init key iv) s = .next { s with trace := s.trace ++ [.response ⟨.errInvalidIvLength, 0, 0, []⟩] })

/-! ### Primitives (40_primitives) -/

/-- R111: BEINC adds one modulo `2^W`, changes only the bytes from the last non-0xFF byte on, and `k` of them add `k`. -/
def Obligations.BeincAddsOne : Prop :=
  ∀ x : List Byte,
    (beinc x).length = x.length ∧ be (beinc x) = (be x + 1) % 2 ^ (8 * x.length) ∧
    (∀ k, be (beinc^[k] x) = (be x + k % 2 ^ (8 * x.length)) % 2 ^ (8 * x.length)) ∧
    (∀ k, beinc (List.replicate k 0xFF) = List.replicate k 0) ∧
    (∀ (b : Byte) (k : Nat), b ≠ 0xFF → beinc (x ++ b :: List.replicate k 0xFF) = x ++ (b + 1) :: List.replicate k 0)

/-- R113: BEADD adds modulo `2^W`, agrees with repeated BEINC, and composes. -/
def Obligations.BeaddAddsModulo : Prop :=
  ∀ (x : List Byte) (m n : Nat),
    (beadd x n).length = x.length ∧ be (beadd x n) = (be x + n) % 2 ^ (8 * x.length) ∧
    beinc^[n] x = beadd x n ∧ beadd (beadd x m) n = beadd x (m + n)

/-- R115, R116: what REFILL leaves, for any block transform. -/
def Obligations.RefillLeavesWholeBlocks : Prop :=
  ∀ (E : Cipher) (s : State), SizesOk s →
    let B := s.cfg.blockBytes
    let C := capacity s.cfg
    let r := s.avail
    let k := (C - r) / B
    let counterAt := fun j => tobe B ((be s.ctr + j) % counterValues s.cfg)
    let t := refill E s
    t.cur = 0 ∧ t.len = r + k * B ∧ C - B < t.len ∧ t.len ≤ C ∧ (r = 0 → 1 ≤ k) ∧
    t.ctr = counterAt k ∧
    (∀ i, i < r → Memory.lookup t.buf i = Memory.lookup s.buf (s.cur + i)) ∧
    (∀ j b, j < k → b < B → Memory.lookup t.buf (r + j * B + b) = some (E s.key (counterAt j) b)) ∧
    (∀ a, t.len ≤ a → Memory.lookup t.buf a = Memory.lookup s.buf a) ∧
    t.trace = s.trace ++ (List.range k).map (fun j => .cipherEncrypt (counterAt j)) ∧
    t.pos = s.pos ∧ SameHost s t ∧ SameIdentity s t ∧ t.resPort = s.resPort ∧
    SizesOk t ∧ (StreamOk E s → StreamOk E t)

/-- R117, R118: after the refill test at least one byte is unconsumed, in every state; so the count XORSTEP returns is the
three-way minimum and at least 1 on non-empty operands; so the loop of APPLY drains its input within as many turns as there
are bytes, and more turns change nothing. -/
def Obligations.XorstepCountAndProgress : Prop :=
  (∀ (E : Cipher) (s : State), 1 ≤ (refillIfLow E s).avail) ∧
  (∀ (E : Cipher) (dstLen : Nat) (src out : List Byte) (s t : State), xorStep E dstLen src s = .ok (out, t) →
    (min dstLen src.length = 0 → out = [] ∧ t = s) ∧
    (min dstLen src.length ≠ 0 →
      out.length = min (min dstLen src.length) (refillIfLow E s).avail ∧ 1 ≤ out.length ∧
      t.cur = (refillIfLow E s).cur + out.length)) ∧
  (∀ (E : Cipher) (src : List Byte) (s : State) (turns : Nat), src.length ≤ turns →
    applyLoop E turns src s = applyCore E src s) ∧
  (∀ (E : Cipher) (src dst : List Byte) (s t : State), applyCore E src s = .ok (dst, t) →
    dst.length = src.length ∧ t.pos = s.pos + src.length)

/-! ### APPLY (41 R133 to R135) -/

/-- R135, R174: APPLY answers `src[i] xor KS(pos + i)` for every byte and advances the position; between the state before
and the response only encrypt requests are seen; the frame; the invariant. -/
def Obligations.ApplyOutputsStream : Prop :=
  ∀ (s : State) (data : List Byte), Inv Config.encryptByte s → s.constructed = true →
    ∃ (t : State) (blocks : List (List Byte)), exec (.apply data) s = .next t ∧
      t.trace = s.trace ++ blocks.map PortEvent.cipherEncrypt ++
        [.response ⟨.ok, 0, countField data.length, s.streamXor Config.encryptByte s.pos data⟩] ∧
      t.pos = s.pos + data.length ∧ SameHost s t ∧ SameIdentity s t ∧ t.resPort = s.resPort ∧ SameOutsideBuffer s t ∧
      Inv Config.encryptByte t

/-- R134: APPLY of nothing does nothing. -/
def Obligations.ApplyEmptyDoesNothing : Prop :=
  ∀ s : State, s.constructed = true →
    exec (.apply []) s = .next { s with trace := s.trace ++ [.response ⟨.ok, 0, 0, []⟩] }

/-- R117: where at least one block and all the data are covered by unconsumed bytes, APPLY reads them, moves the cursor and
changes nothing else: no refill, so neither the counter nor any buffer byte. -/
def Obligations.ApplyWithinLookahead : Prop :=
  ∀ (s : State) (data : List Byte), s.constructed = true → Readable s → s.cfg.blockBytes ≤ s.avail →
    data.length ≤ s.avail →
    ∃ out, exec (.apply data) s = .next { s with
        cur := s.cur + data.length, pos := s.pos + data.length
        trace := s.trace ++ [.response ⟨.ok, 0, countField data.length, out⟩] } ∧
      out.length = data.length ∧
      ∀ i (h : i < data.length), ∃ b, Memory.lookup s.buf (s.cur + i) = some b ∧ out[i]? = some (data[i] ^^^ b)

/-! ### SEEKTO (41 R136 to R138) -/

/-- R136: SEEKTO maps an offset to counter and cursor, regenerates the buffer, and answers the offset. -/
def Obligations.SeektoMapsOffset : Prop :=
  ∀ (s : State) (offset : BitVec 64), s.constructed = true → 0 ≤ offset.toInt → s.iv.length = s.cfg.blockBytes →
    ∃ t, exec (.seekto offset) s = .next t ∧ Repositioned Config.encryptByte s t offset.toInt.toNat ∧
      t.resPort = s.resPort ∧
      t.trace = s.trace ++ repositionRequests s offset.toInt.toNat ++ [.response ⟨.ok, 0, offset, []⟩]

/-- R137, R203: a negative offset is refused and changes nothing. -/
def Obligations.SeektoRefusesNegative : Prop :=
  ∀ (s : State) (offset : BitVec 64), s.constructed = true → offset.toInt < 0 →
    exec (.seekto offset) s = .next { s with trace := s.trace ++ [.response ⟨.errNegOffset, 0, 0, []⟩] }

/-- R138 (d): the generator after SEEKTO does not depend on `ctr`, `buf`, `len`, `cur` or the position before. -/
def Obligations.SeektoForgetsHistory : Prop :=
  ∀ (s s' t t' : State) (offset : BitVec 64), s'.cfg = s.cfg → SameIdentity s s' → s.constructed = true →
    0 ≤ offset.toInt → s.iv.length = s.cfg.blockBytes →
    exec (.seekto offset) s = .next t → exec (.seekto offset) s' = .next t' →
    t'.ctr = t.ctr ∧ t'.len = t.len ∧ t'.cur = t.cur ∧ t'.pos = t.pos ∧
    ∀ a, a < t.len → Memory.lookup t'.buf a = Memory.lookup t.buf a

/-! ### RD, WR, SEEK, CLOSE (42_adapter_commands) -/

/-- R150, R151: RD answers, decrypted, exactly the bytes the resource returned, whatever its status; the resource is asked
before any keystream is generated. -/
def Obligations.RdDecryptsWhatCame : Prop :=
  ∀ (s : State) (len : BitVec 64) (d : List Byte) (rstat : BitVec 32) (rest : List ResAnswer),
    Inv Config.encryptByte s → s.constructed = true → s.resPort = .read d rstat :: rest → d.length ≤ len.toNat →
    ∃ (t : State) (blocks : List (List Byte)), exec (.rd len) s = .next t ∧
      t.trace = s.trace ++ [.resRead len] ++ blocks.map PortEvent.cipherEncrypt ++
        [.response ⟨if rstat = 0 then .ok else .resource, rstat, countField d.length,
          s.streamXor Config.encryptByte s.pos d⟩] ∧
      t.pos = s.pos + d.length ∧ t.resPort = rest ∧ SameHost s t ∧ SameIdentity s t ∧ SameOutsideBuffer s t ∧
      Inv Config.encryptByte t

/-- R151 (b): a read that returns no bytes leaves the generator exactly as it was. -/
def Obligations.RdOfNothingLeavesGenerator : Prop :=
  ∀ (s : State) (len : BitVec 64) (rstat : BitVec 32) (rest : List ResAnswer),
    s.constructed = true → s.resPort = .read [] rstat :: rest →
    exec (.rd len) s = .next { s with
      resPort := rest
      trace := s.trace ++ [.resRead len, .response ⟨if rstat = 0 then .ok else .resource, rstat, 0, []⟩] }

/-- R153, R154: WR encrypts all its data, then offers the ciphertext, and answers the resource's count and status; the
position advances by the whole length, however much the resource took. -/
def Obligations.WrEncryptsThenWrites : Prop :=
  ∀ (s : State) (data : List Byte) (m : Nat) (rstat : BitVec 32) (rest : List ResAnswer),
    Inv Config.encryptByte s → s.constructed = true → s.resPort = .write m rstat :: rest → m ≤ data.length →
    ∃ (t : State) (blocks : List (List Byte)), exec (.wr data) s = .next t ∧
      t.trace = s.trace ++ blocks.map PortEvent.cipherEncrypt ++
        [.resWrite (s.streamXor Config.encryptByte s.pos data),
          .response ⟨if rstat = 0 then .ok else .resource, rstat, countField m, []⟩] ∧
      t.pos = s.pos + data.length ∧ t.resPort = rest ∧ SameHost s t ∧ SameIdentity s t ∧ SameOutsideBuffer s t ∧
      Inv Config.encryptByte t

/-- R156: a SEEK the resource resolves to a legal position repositions the generator there, after the resource. -/
def Obligations.SeekRepositionsBoth : Prop :=
  ∀ (s : State) (whence : Whence) (offset a : BitVec 64) (rest : List ResAnswer), s.constructed = true →
    s.cfg.resCanSeek = true → s.resPort = .seek a 0 :: rest → 0 ≤ a.toInt → s.iv.length = s.cfg.blockBytes →
    ∃ t, exec (seekInstr whence offset) s = .next t ∧ Repositioned Config.encryptByte s t a.toInt.toNat ∧
      t.resPort = rest ∧
      t.trace = s.trace ++ [.resSeek offset whence] ++ repositionRequests s a.toInt.toNat ++ [.response ⟨.ok, 0, a, []⟩]

/-- R157, R207: SEEK on a resource that cannot seek does nothing and answers UNSUPPORTED. -/
def Obligations.SeekUnsupportedDoesNothing : Prop :=
  ∀ (s : State) (whence : Whence) (offset : BitVec 64), s.constructed = true → s.cfg.resCanSeek = false →
    exec (seekInstr whence offset) s = .next { s with trace := s.trace ++ [.response ⟨.unsupported, 0, 0, []⟩] }

/-- R158: a SEEK the resource refuses hands its answer on; one it resolves to a negative position faults; the generator is
untouched in both. -/
def Obligations.SeekFailuresLeaveGenerator : Prop :=
  ∀ (s : State) (whence : Whence) (offset a : BitVec 64) (rstat : BitVec 32) (rest : List ResAnswer),
    s.constructed = true → s.cfg.resCanSeek = true → s.resPort = .seek a rstat :: rest →
    (rstat ≠ 0 → exec (seekInstr whence offset) s = .next { s with
      resPort := rest, trace := s.trace ++ [.resSeek offset whence, .response ⟨.resource, rstat, a, []⟩] }) ∧
    (rstat = 0 → a.toInt < 0 → exec (seekInstr whence offset) s = .next { s with
      resPort := rest, trace := s.trace ++ [.resSeek offset whence, .response ⟨.errNegOffset, 0, 0, []⟩] })

/-- R159, R160: CLOSE is forwarded, answers the resource's status, and does not touch the generator. -/
def Obligations.CloseForwards : Prop :=
  ∀ (s : State) (rstat : BitVec 32) (rest : List ResAnswer), s.constructed = true → s.cfg.resCanClose = true →
    s.resPort = .close rstat :: rest →
    exec .close s = .next { s with
      resPort := rest
      trace := s.trace ++ [.resClose, .response ⟨if rstat = 0 then .ok else .resource, rstat, 0, []⟩] }

/-- R159, R160, R207: CLOSE on a resource that cannot close does nothing and answers UNSUPPORTED. -/
def Obligations.CloseUnsupportedDoesNothing : Prop :=
  ∀ s : State, s.constructed = true → s.cfg.resCanClose = false →
    exec .close s = .next { s with trace := s.trace ++ [.response ⟨.unsupported, 0, 0, []⟩] }

/-- R242: where the resource has no answer the command that asks it never completes. What is then seen (R9) ends with the
unanswered request; of WR the encrypt requests come before it (R58, R153), the counter values of the blocks that the data still
needs. That a core stuck waiting is shown as this fault, which carries what was seen, is the model's choice (log 6, 18). -/
def Obligations.SilentResourceSticks : Prop :=
  ∀ s : State, s.constructed = true → s.resPort = [] →
    (∀ len, exec (.rd len) s = .fault (.resourceSilent (s.trace ++ [.resRead len]))) ∧
    (Inv Config.encryptByte s → ∀ data, ∃ u,
      applyCore Config.encryptByte data s = .ok (s.streamXor Config.encryptByte s.pos data, u) ∧
      s.nextBlock ≤ u.nextBlock ∧
      exec (.wr data) s = .fault (.resourceSilent (s.trace ++
        ((List.range (u.nextBlock - s.nextBlock)).map fun j => .cipherEncrypt (counterBlock s.cfg s.iv (s.nextBlock + j))) ++
        [.resWrite (s.streamXor Config.encryptByte s.pos data)]))) ∧
    (s.cfg.resCanSeek = true → ∀ whence offset,
      exec (seekInstr whence offset) s = .fault (.resourceSilent (s.trace ++ [.resSeek offset whence]))) ∧
    (s.cfg.resCanClose = true → exec .close s = .fault (.resourceSilent (s.trace ++ [.resClose])))

/-- R55, D41, U5: an answer outside the resource's contract is no move of the resource, and the model refuses it: one of
another kind than the request, more bytes than asked, a count above the length (log 7). What was seen by then (R9) ends with the
request (log 18). -/
def Obligations.AnswersOutsideContractRefused : Prop :=
  ∀ (s : State) (answer : ResAnswer) (rest : List ResAnswer), s.constructed = true → s.resPort = answer :: rest →
    (∀ len, (∀ d rstat, answer = .read d rstat → len.toNat < d.length) →
      exec (.rd len) s = .refused (.resourceOutsideContract (s.trace ++ [.resRead len]))) ∧
    (∀ data, Inv Config.encryptByte s → (∀ m rstat, answer = .write m rstat → data.length < m) →
      ∃ blocks : List (List Byte), exec (.wr data) s = .refused (.resourceOutsideContract (s.trace ++
        blocks.map PortEvent.cipherEncrypt ++ [.resWrite (s.streamXor Config.encryptByte s.pos data)]))) ∧
    (∀ whence offset, s.cfg.resCanSeek = true → (∀ a rstat, answer ≠ .seek a rstat) →
      exec (seekInstr whence offset) s = .refused (.resourceOutsideContract (s.trace ++ [.resSeek offset whence]))) ∧
    (s.cfg.resCanClose = true → (∀ rstat, answer ≠ .close rstat) →
      exec .close s = .refused (.resourceOutsideContract (s.trace ++ [.resClose])))

/-- R161: where generator and resource stand at one position, RD keeps them together and WR does exactly when the resource
takes everything; a successful SEEK brings them together whatever held before. -/
def Obligations.PositionsStaySynchronised : Prop :=
  ∀ (s t : State) (i : Instr) (answer : ResAnswer) (rest : List ResAnswer) (rpos : Nat),
    Inv Config.encryptByte s → s.constructed = true → s.resPort = answer :: rest → exec i s = .next t →
    (∀ len, i = .rd len → s.pos = rpos → resourcePositionAfter rpos answer = some t.pos) ∧
    (∀ data, i = .wr data → s.pos = rpos →
      (resourcePositionAfter rpos answer = some t.pos ↔ ∃ rstat, answer = .write data.length rstat)) ∧
    (∀ o, SeeksTo s o i → (∃ whence offset, i = seekInstr whence offset) →
      resourcePositionAfter rpos answer = some t.pos)

/-! ### The laws of 43_laws -/

/-- R173: after a seek to `o` the position is `o` and the invariant holds, so the next APPLY outputs `src[i] xor KS(o + i)`;
an instance at position 0 of the same stream that first APPLYs `o` bytes outputs the same. -/
def Obligations.SeekExactness : Prop :=
  ∀ (i : Instr) (s : State) (o : Nat) (src : List Byte), Inv Config.encryptByte s → s.constructed = true →
    SeeksTo s o i →
    ∃ t u, exec i s = .next t ∧ t.pos = o ∧ Inv Config.encryptByte t ∧ exec (.apply src) t = .next u ∧
      lastOutput u = s.streamXor Config.encryptByte o src ∧
      ∀ (f : State) (before : List Byte), Inv Config.encryptByte f → f.cfg = s.cfg → SameIdentity s f → f.pos = 0 →
        before.length = o → ∃ g, execAll [.apply before, .apply src] f = .next g ∧ lastOutput g = lastOutput u

/-- R175: two instances constructed from one key and IV: the second decrypts what the first encrypted. -/
def Obligations.RoundTrip : Prop :=
  ∀ (a b : State) (key iv plain : List Byte), Inv Config.encryptByte a → Inv Config.encryptByte b →
    a.constructed = false → b.constructed = false → b.cfg.blockBytes = a.cfg.blockBytes →
    key.length ∈ a.cfg.keyLens → key.length ∈ b.cfg.keyLens → iv.length = a.cfg.blockBytes →
    ∃ a' b', execAll [.init key iv, .apply plain] a = .next a' ∧
      execAll [.init key iv, .apply (lastOutput a')] b = .next b' ∧ lastOutput b' = plain

/-- R176: seeking to `o` and decrypting the rest gives the suffix of decrypting everything from 0. -/
def Obligations.SeekConsistency : Prop :=
  ∀ (a b : State) (key iv cipherText : List Byte) (offset : BitVec 64), Inv Config.encryptByte a →
    Inv Config.encryptByte b → a.constructed = false → b.constructed = false →
    b.cfg.blockBytes = a.cfg.blockBytes → key.length ∈ a.cfg.keyLens → key.length ∈ b.cfg.keyLens →
    iv.length = a.cfg.blockBytes → 0 ≤ offset.toInt → offset.toInt.toNat < cipherText.length →
    ∃ a' b', execAll [.init key iv, .apply cipherText] a = .next a' ∧
      execAll [.init key iv, .seekto offset, .apply (cipherText.drop offset.toInt.toNat)] b = .next b' ∧
      lastOutput b' = (lastOutput a').drop offset.toInt.toNat

/-- R177: any split of the data into APPLYs gives the same bytes and the same position as one APPLY. -/
def Obligations.ChunkingIndependence : Prop :=
  ∀ (s : State) (parts : List (List Byte)), Inv Config.encryptByte s → s.constructed = true →
    ∃ (t u : State) (rs : List Response), exec (.apply parts.flatten) s = .next t ∧ execAll (parts.map Instr.apply) s = .next u ∧
      responses u.trace = responses s.trace ++ rs ∧ rs.length = parts.length ∧
      (rs.map Response.payload).flatten = lastOutput t ∧ u.pos = t.pos

/-- R179: two instances that differ only in `CFG_BUF` and the lookahead state go through any number of steps with the same
responses and resource requests; they stop together, for the same reason, with the same responses and resource requests
seen by then. -/
def Obligations.BufferSizeIndependence : Prop :=
  ∀ (n : Nat) (s t : State), SameStream Config.encryptByte s t →
    match Host.Core.run core n s, Host.Core.run core n t with
    | .next s', .next t' => SameStream Config.encryptByte s' t'
    | .fault f, .fault g => f.withoutEncrypts = g.withoutEncrypts
    | .refused q, .refused r => q.withoutEncrypts = r.withoutEncrypts
    | _, _ => False

/-- R180: the keystream repeats after `B * 2^W` bytes: two SEEKTOs that far apart leave the same counter, cursor and buffer,
ask the cipher for the same blocks, and the next APPLY gives the same output. -/
def Obligations.KeystreamPeriodic : Prop :=
  ∀ (s : State) (o o' : BitVec 64), Inv Config.encryptByte s → s.constructed = true → 0 ≤ o.toInt →
    o'.toInt = o.toInt + (s.cfg.blockBytes * 2 ^ (8 * s.cfg.blockBytes) : Nat) →
    ∃ t t', exec (.seekto o) s = .next t ∧ exec (.seekto o') s = .next t' ∧
      t'.ctr = t.ctr ∧ t'.len = t.len ∧ t'.cur = t.cur ∧ (∀ a, Memory.lookup t'.buf a = Memory.lookup t.buf a) ∧
      encryptRequests t'.trace = encryptRequests t.trace ∧
      ∀ data, ∃ u u', exec (.apply data) t = .next u ∧ exec (.apply data) t' = .next u' ∧ lastOutput u' = lastOutput u

/-- R181: the encrypt requests of APPLY, RD and WR go on, without gap or repeat, with the counter values of the block
indices from the first not yet in the buffer; a seek restarts them at `o div B`. -/
def Obligations.EncryptRequestsFollowTheStream : Prop :=
  ∀ (i : Instr) (s t : State), Inv Config.encryptByte s → s.constructed = true → exec i s = .next t →
    ((∃ data, i = .apply data ∨ i = .wr data) ∨ (∃ len, i = .rd len) →
      s.nextBlock ≤ t.nextBlock ∧
      encryptRequests t.trace = encryptRequests s.trace ++
        (List.range (t.nextBlock - s.nextBlock)).map fun j => counterBlock s.cfg s.iv (s.nextBlock + j)) ∧
    (∀ o, SeeksTo s o i →
      t.nextBlock = o / s.cfg.blockBytes + capacity s.cfg / s.cfg.blockBytes ∧
      encryptRequests t.trace = encryptRequests s.trace ++
        (List.range (capacity s.cfg / s.cfg.blockBytes)).map fun j =>
          counterBlock s.cfg s.iv (o / s.cfg.blockBytes + j))

/-- R242: an APPLY, WR or RD with `len = L` makes at most `L div B + C div B + 1` encrypt requests, also where the
resource never answers it. -/
def Obligations.EncryptWorkBound : Prop :=
  ∀ (i : Instr) (L : Nat) (s : State) (seen : List PortEvent), Inv Config.encryptByte s → s.constructed = true →
    ((∃ data, (i = .apply data ∨ i = .wr data) ∧ data.length = L) ∨ ∃ len, i = .rd len ∧ len.toNat = L) →
    ((∃ t, exec i s = .next t ∧ seen = t.trace) ∨ exec i s = .fault (.resourceSilent seen)) →
    (encryptRequests seen).length ≤ (encryptRequests s.trace).length +
      (L / s.cfg.blockBytes + capacity s.cfg / s.cfg.blockBytes + 1)
end

