-- ==== Sys2Proof/Laws/Bytes.lean ====
section
/-! SUPPORT. Big-endian numbers (00_scope R18): `be` and `tobe` are inverse on `n` bytes. -/

namespace Sys2Proof

@[simp] theorem length_tobe (n v : Nat) : (tobe n v).length = n := by
  induction n with
  | zero => rfl
  | succ n ih => simp [tobe, ih]

theorem be_lt (bs : List Byte) : be bs < 256 ^ bs.length := by
  induction bs with
  | nil => simp [be]
  | cons b bs ih =>
    have hb : b.toNat < 256 := b.isLt
    have : b.toNat * 256 ^ bs.length + 256 ^ bs.length ≤ 256 * 256 ^ bs.length := by
      rw [← Nat.succ_mul]; exact Nat.mul_le_mul_right _ hb
    simp only [be, List.length_cons, Nat.pow_succ]
    omega

theorem be_tobe (n v : Nat) : be (tobe n v) = v % 256 ^ n := by
  induction n with
  | zero => simp [be, tobe, Nat.mod_one]
  | succ n ih =>
    simp only [tobe, be, length_tobe, ih, BitVec.toNat_ofNat]
    rw [Nat.pow_succ 256 n, Nat.mod_mul (a := 256 ^ n) (b := 256), show (2 : Nat) ^ 8 = 256 from rfl,
      Nat.mul_comm (v / 256 ^ n % 256), Nat.add_comm]

theorem be_append (xs ys : List Byte) : be (xs ++ ys) = be xs * 256 ^ ys.length + be ys := by
  induction xs with
  | nil => simp [be]
  | cons x xs ih => simp only [List.cons_append, be, ih, List.length_append, Nat.pow_add]; ring

theorem tobe_mod (n v : Nat) : tobe n (v % 256 ^ n) = tobe n v := by
  have key : ∀ m k, m ≤ k → tobe m (v % 256 ^ k) = tobe m v := by
    intro m
    induction m with
    | zero => exact fun _ _ => rfl
    | succ m ih =>
      intro k hk
      simp only [tobe, ih k (by omega)]
      congr 1
      apply BitVec.eq_of_toNat_eq
      simp only [BitVec.toNat_ofNat]
      obtain ⟨d, rfl⟩ : ∃ d, k = m + (d + 1) := ⟨k - m - 1, by omega⟩
      rw [Nat.pow_add, Nat.mod_mul_right_div_self, Nat.pow_succ, Nat.mul_comm (256 ^ d)]
      exact Nat.mod_mul_right_mod _ _ _
  exact key n n (Nat.le_refl n)

theorem tobe_be (bs : List Byte) : tobe bs.length (be bs) = bs := by
  induction bs with
  | nil => rfl
  | cons b bs ih =>
    have hlt := be_lt bs
    have hpos : 0 < 256 ^ bs.length := Nat.pow_pos (by decide)
    simp only [List.length_cons, tobe, be]
    congr 1
    · apply BitVec.eq_of_toNat_eq
      rw [BitVec.toNat_ofNat, Nat.add_comm, Nat.add_mul_div_right _ _ hpos, Nat.div_eq_of_lt hlt, Nat.zero_add]
      exact Nat.mod_eq_of_lt b.isLt
    · rw [← tobe_mod, Nat.add_comm, Nat.add_mul_mod_self_right, tobe_mod, ih]

/-- Byte strings of one length with one value are equal. -/
theorem be_inj {xs ys : List Byte} (hl : xs.length = ys.length) (h : be xs = be ys) : xs = ys := by
  rw [← tobe_be xs, ← tobe_be ys, hl, h]

theorem tobe_eq_of_be {bs : List Byte} {n v : Nat} (hl : bs.length = n) (h : be bs = v % 256 ^ n) : bs = tobe n v :=
  be_inj (by simp [hl]) (by rw [h, be_tobe])

end Sys2Proof
end

