-- ==== Sys2Proof/Laws/Memory.lean ====
section
/-! SUPPORT. The buffer's memory: read after write, frames, and the canonical form that every memory operation keeps. -/

namespace Sys2Proof.Machine

@[simp] theorem lookup_nil (x : Nat) : Memory.lookup [] x = none := rfl

theorem lookup_cons (a : Nat) (b : Byte) (m : Memory) (x : Nat) :
    Memory.lookup ((a, b) :: m) x = if a = x then some b else Memory.lookup m x := rfl

@[simp] theorem lookup_write_same (m : Memory) (x : Nat) (v : Byte) :
    Memory.lookup (Memory.write m x v) x = some v := by
  induction m with
  | nil => simp [Memory.write, lookup_cons]
  | cons c m ih =>
    obtain ⟨a, b⟩ := c
    unfold Memory.write
    split
    · simp [lookup_cons]
    · split
      · simp [lookup_cons]
      · have : a ≠ x := by omega
        simp [lookup_cons, this, ih]

theorem lookup_write_other (m : Memory) {x y : Nat} (v : Byte) (h : y ≠ x) :
    Memory.lookup (Memory.write m x v) y = Memory.lookup m y := by
  induction m with
  | nil => simp [Memory.write, lookup_cons, h.symm]
  | cons c m ih =>
    obtain ⟨a, b⟩ := c
    unfold Memory.write
    split
    · simp [lookup_cons, h.symm]
    · split
      · rename_i hx
        subst hx
        simp [lookup_cons, h.symm]
      · simp [lookup_cons, ih]

theorem lookup_write (m : Memory) (x y : Nat) (v : Byte) :
    Memory.lookup (Memory.write m x v) y = if y = x then some v else Memory.lookup m y := by
  split
  · subst y; simp
  · exact lookup_write_other m v ‹_›

theorem lookup_erase_other (m : Memory) {x y : Nat} (h : y ≠ x) :
    Memory.lookup (Memory.erase m x) y = Memory.lookup m y := by
  induction m with
  | nil => rfl
  | cons c m ih =>
    obtain ⟨a, b⟩ := c
    unfold Memory.erase
    split
    · rename_i hx
      subst hx
      simp [lookup_cons, h.symm]
    · simp [lookup_cons, ih]

theorem allAbove_mono {lo hi : Nat} (h : lo ≤ hi) :
    ∀ m : Memory, Memory.allAbove hi m = true → Memory.allAbove lo m = true
  | [], _ => rfl
  | (a, _) :: m, hm => by
    simp only [Memory.allAbove, Bool.and_eq_true, decide_eq_true_eq] at hm ⊢
    exact ⟨by omega, allAbove_mono h m hm.2⟩

theorem lookup_of_allAbove {lo x : Nat} (hx : x ≤ lo) :
    ∀ m : Memory, Memory.allAbove lo m = true → Memory.lookup m x = none
  | [], _ => rfl
  | (a, b) :: m, hm => by
    simp only [Memory.allAbove, Bool.and_eq_true, decide_eq_true_eq] at hm
    have : a ≠ x := by omega
    simp [lookup_cons, this, lookup_of_allAbove hx m hm.2]

theorem wf_cons (a : Nat) (b : Byte) (m : Memory) :
    Memory.wf ((a, b) :: m) = true ↔ Memory.allAbove a m = true ∧ Memory.wf m = true := by
  simp [Memory.wf]

theorem lookup_erase_same (m : Memory) (x : Nat) (h : Memory.wf m = true) :
    Memory.lookup (Memory.erase m x) x = none := by
  induction m with
  | nil => rfl
  | cons c m ih =>
    obtain ⟨a, b⟩ := c
    obtain ⟨habove, hwf⟩ := (wf_cons a b m).1 h
    unfold Memory.erase
    split
    · rename_i hx
      exact lookup_of_allAbove (by omega) m habove
    · rename_i hx
      simp [lookup_cons, hx, ih hwf]

theorem allAbove_write {lo x : Nat} (v : Byte) (hx : lo < x) :
    ∀ m : Memory, Memory.allAbove lo m = true → Memory.allAbove lo (Memory.write m x v) = true
  | [], _ => by simp [Memory.write, Memory.allAbove, hx]
  | (a, b) :: m, hm => by
    simp only [Memory.allAbove, Bool.and_eq_true, decide_eq_true_eq] at hm
    unfold Memory.write
    split
    · simp [Memory.allAbove, hx, hm]
    · split
      · simp [Memory.allAbove, hx, hm]
      · simp [Memory.allAbove, hm.1, allAbove_write v hx m hm.2]

/-- A write keeps the canonical form. -/
theorem wf_write (m : Memory) (x : Nat) (v : Byte) (h : Memory.wf m = true) : Memory.wf (Memory.write m x v) = true := by
  induction m with
  | nil => rfl
  | cons c m ih =>
    obtain ⟨a, b⟩ := c
    obtain ⟨habove, hwf⟩ := (wf_cons a b m).1 h
    unfold Memory.write
    split
    · rename_i hx
      simp [Memory.wf, Memory.allAbove, hx, allAbove_mono hx.le m habove, habove, hwf]
    · split
      · rename_i hx
        subst hx
        simp [Memory.wf, habove, hwf]
      · simp [Memory.wf, allAbove_write v (by omega : a < x) m habove, ih hwf]

theorem allAbove_erase {lo x : Nat} :
    ∀ m : Memory, Memory.allAbove lo m = true → Memory.allAbove lo (Memory.erase m x) = true
  | [], _ => rfl
  | (a, b) :: m, hm => by
    simp only [Memory.allAbove, Bool.and_eq_true, decide_eq_true_eq] at hm
    unfold Memory.erase
    split
    · exact hm.2
    · simp [Memory.allAbove, hm.1, allAbove_erase m hm.2]

/-- Forgetting a byte keeps the canonical form. -/
theorem wf_erase (m : Memory) (x : Nat) (h : Memory.wf m = true) : Memory.wf (Memory.erase m x) = true := by
  induction m with
  | nil => rfl
  | cons c m ih =>
    obtain ⟨a, b⟩ := c
    obtain ⟨habove, hwf⟩ := (wf_cons a b m).1 h
    unfold Memory.erase
    split
    · exact hwf
    · simp [Memory.wf, allAbove_erase m habove, ih hwf]

theorem wf_writeBytes (bs : List Byte) : ∀ (m : Memory) (a : Nat), Memory.wf m = true →
    Memory.wf (Memory.writeBytes m a bs) = true := by
  induction bs with
  | nil => exact fun m a h => h
  | cons b bs ih => exact fun m a h => ih _ _ (wf_write m a b h)

theorem wf_copyByte (m : Memory) (dst src : Nat) (h : Memory.wf m = true) :
    Memory.wf (Memory.copyByte m dst src) = true := by
  unfold Memory.copyByte
  split
  · exact wf_write m dst _ h
  · exact wf_erase m dst h

theorem wf_copyUp (n : Nat) : ∀ (m : Memory) (dst src : Nat), Memory.wf m = true →
    Memory.wf (Memory.copyUp m dst src n) = true := by
  induction n with
  | zero => exact fun m dst src h => h
  | succ n ih => exact fun m dst src h => ih _ _ _ (wf_copyByte m dst src h)

/-- What consecutive stores leave: the stored bytes at their indices, everything else as before. -/
theorem lookup_writeBytes (bs : List Byte) : ∀ (m : Memory) (a x : Nat),
    Memory.lookup (Memory.writeBytes m a bs) x = if a ≤ x ∧ x < a + bs.length then bs[x - a]? else Memory.lookup m x := by
  induction bs with
  | nil =>
    intro m a x
    have : ¬ (a ≤ x ∧ x < a + ([] : List Byte).length) := by simp
    rw [if_neg this]; rfl
  | cons b bs ih =>
    intro m a x
    rw [Memory.writeBytes, ih, lookup_write, List.length_cons]
    by_cases hx : x = a
    · subst hx
      rw [if_neg (by omega), if_pos rfl, if_pos (by omega)]
      simp
    · by_cases h : a + 1 ≤ x ∧ x < a + 1 + bs.length
      · rw [if_pos h, if_pos (by omega)]
        obtain ⟨k, rfl⟩ : ∃ k, x = a + 1 + k := ⟨x - (a + 1), by omega⟩
        rw [show a + 1 + k - (a + 1) = k by omega, show a + 1 + k - a = k + 1 by omega, List.getElem?_cons_succ]
      · rw [if_neg h, if_neg hx, if_neg (by omega)]

theorem lookup_copyByte_other (m : Memory) {dst x : Nat} (src : Nat) (h : x ≠ dst) :
    Memory.lookup (Memory.copyByte m dst src) x = Memory.lookup m x := by
  unfold Memory.copyByte
  split
  · exact lookup_write_other m _ h
  · exact lookup_erase_other m h

theorem lookup_copyByte_same (m : Memory) (dst src : Nat) (hwf : Memory.wf m = true) :
    Memory.lookup (Memory.copyByte m dst src) dst = Memory.lookup m src := by
  unfold Memory.copyByte
  split
  · rename_i b hb; rw [lookup_write_same, hb]
  · rename_i hb; rw [lookup_erase_same m dst hwf, hb]

/-- An upward copy leaves every index outside the destination alone. -/
theorem lookup_copyUp_other (n : Nat) : ∀ (m : Memory) (dst src x : Nat), ¬ (dst ≤ x ∧ x < dst + n) →
    Memory.lookup (Memory.copyUp m dst src n) x = Memory.lookup m x := by
  induction n with
  | zero => exact fun m dst src x _ => rfl
  | succ n ih =>
    intro m dst src x h
    rw [Memory.copyUp, ih _ _ _ _ (by omega), lookup_copyByte_other m src (by omega)]

/-- An overlapping move toward lower indices, in increasing order, moves every byte (20_memory R41). -/
theorem lookup_copyUp_moved (n : Nat) : ∀ (m : Memory) (dst src i : Nat), Memory.wf m = true → dst ≤ src → i < n →
    Memory.lookup (Memory.copyUp m dst src n) (dst + i) = Memory.lookup m (src + i) := by
  induction n with
  | zero => intro m dst src i _ _ h; omega
  | succ n ih =>
    intro m dst src i hwf hle h
    rw [Memory.copyUp]
    cases i with
    | zero =>
      rw [lookup_copyUp_other _ _ _ _ _ (by omega)]
      exact lookup_copyByte_same m dst src hwf
    | succ i =>
      rw [show dst + (i + 1) = dst + 1 + i by omega, ih _ _ _ _ (wf_copyByte m dst src hwf) (by omega) (by omega),
        show src + 1 + i = src + (i + 1) by omega]
      exact lookup_copyByte_other m src (by omega)

end Sys2Proof.Machine
end

