-- ==== Sys2Proof/Laws/State.lean ====
section
/-! SUPPORT. One lemma per field per named update of the state: later proofs read a field without unfolding a record
update. -/

namespace Sys2Proof.Machine

section emit
variable (s : State) (e : PortEvent)
@[simp] theorem emit_cfg : (s.emit e).cfg = s.cfg := rfl
@[simp] theorem emit_constructed : (s.emit e).constructed = s.constructed := rfl
@[simp] theorem emit_key : (s.emit e).key = s.key := rfl
@[simp] theorem emit_iv : (s.emit e).iv = s.iv := rfl
@[simp] theorem emit_ctr : (s.emit e).ctr = s.ctr := rfl
@[simp] theorem emit_buf : (s.emit e).buf = s.buf := rfl
@[simp] theorem emit_len : (s.emit e).len = s.len := rfl
@[simp] theorem emit_cur : (s.emit e).cur = s.cur := rfl
@[simp] theorem emit_pos : (s.emit e).pos = s.pos := rfl
@[simp] theorem emit_cmdPort : (s.emit e).cmdPort = s.cmdPort := rfl
@[simp] theorem emit_resPort : (s.emit e).resPort = s.resPort := rfl
@[simp] theorem emit_resetLine : (s.emit e).resetLine = s.resetLine := rfl
@[simp] theorem emit_resets : (s.emit e).resets = s.resets := rfl
@[simp] theorem emit_trace : (s.emit e).trace = s.trace ++ [e] := rfl
end emit

section respond
variable (s : State) (st : Status) (r : BitVec 32) (v : BitVec 64) (p : List Byte)
@[simp] theorem respond_cfg : (s.respond st r v p).cfg = s.cfg := rfl
@[simp] theorem respond_constructed : (s.respond st r v p).constructed = s.constructed := rfl
@[simp] theorem respond_key : (s.respond st r v p).key = s.key := rfl
@[simp] theorem respond_iv : (s.respond st r v p).iv = s.iv := rfl
@[simp] theorem respond_ctr : (s.respond st r v p).ctr = s.ctr := rfl
@[simp] theorem respond_buf : (s.respond st r v p).buf = s.buf := rfl
@[simp] theorem respond_len : (s.respond st r v p).len = s.len := rfl
@[simp] theorem respond_cur : (s.respond st r v p).cur = s.cur := rfl
@[simp] theorem respond_pos : (s.respond st r v p).pos = s.pos := rfl
@[simp] theorem respond_cmdPort : (s.respond st r v p).cmdPort = s.cmdPort := rfl
@[simp] theorem respond_resPort : (s.respond st r v p).resPort = s.resPort := rfl
@[simp] theorem respond_resetLine : (s.respond st r v p).resetLine = s.resetLine := rfl
@[simp] theorem respond_resets : (s.respond st r v p).resets = s.resets := rfl
@[simp] theorem respond_trace : (s.respond st r v p).trace = s.trace ++ [.response ⟨st, r, v, p⟩] := rfl
end respond

section raise
variable (s : State) (st : Status)
@[simp] theorem raise_cfg : (s.raise st).cfg = s.cfg := rfl
@[simp] theorem raise_constructed : (s.raise st).constructed = s.constructed := rfl
@[simp] theorem raise_key : (s.raise st).key = s.key := rfl
@[simp] theorem raise_iv : (s.raise st).iv = s.iv := rfl
@[simp] theorem raise_ctr : (s.raise st).ctr = s.ctr := rfl
@[simp] theorem raise_buf : (s.raise st).buf = s.buf := rfl
@[simp] theorem raise_len : (s.raise st).len = s.len := rfl
@[simp] theorem raise_cur : (s.raise st).cur = s.cur := rfl
@[simp] theorem raise_pos : (s.raise st).pos = s.pos := rfl
@[simp] theorem raise_cmdPort : (s.raise st).cmdPort = s.cmdPort := rfl
@[simp] theorem raise_resPort : (s.raise st).resPort = s.resPort := rfl
@[simp] theorem raise_resetLine : (s.raise st).resetLine = s.resetLine := rfl
@[simp] theorem raise_resets : (s.raise st).resets = s.resets := rfl
@[simp] theorem raise_trace : (s.raise st).trace = s.trace ++ [.response ⟨st, 0, 0, []⟩] := rfl
end raise

section unsupported
variable (s : State)
@[simp] theorem unsupported_cfg : (s.unsupported).cfg = s.cfg := rfl
@[simp] theorem unsupported_constructed : (s.unsupported).constructed = s.constructed := rfl
@[simp] theorem unsupported_key : (s.unsupported).key = s.key := rfl
@[simp] theorem unsupported_iv : (s.unsupported).iv = s.iv := rfl
@[simp] theorem unsupported_ctr : (s.unsupported).ctr = s.ctr := rfl
@[simp] theorem unsupported_buf : (s.unsupported).buf = s.buf := rfl
@[simp] theorem unsupported_len : (s.unsupported).len = s.len := rfl
@[simp] theorem unsupported_cur : (s.unsupported).cur = s.cur := rfl
@[simp] theorem unsupported_pos : (s.unsupported).pos = s.pos := rfl
@[simp] theorem unsupported_cmdPort : (s.unsupported).cmdPort = s.cmdPort := rfl
@[simp] theorem unsupported_resPort : (s.unsupported).resPort = s.resPort := rfl
@[simp] theorem unsupported_resetLine : (s.unsupported).resetLine = s.resetLine := rfl
@[simp] theorem unsupported_resets : (s.unsupported).resets = s.resets := rfl
@[simp] theorem unsupported_trace : (s.unsupported).trace = s.trace ++ [.response ⟨.unsupported, 0, 0, []⟩] := rfl
end unsupported

section withPort
variable (s : State) (b : List Byte)
@[simp] theorem withPort_cfg : (s.withPort b).cfg = s.cfg := rfl
@[simp] theorem withPort_constructed : (s.withPort b).constructed = s.constructed := rfl
@[simp] theorem withPort_key : (s.withPort b).key = s.key := rfl
@[simp] theorem withPort_iv : (s.withPort b).iv = s.iv := rfl
@[simp] theorem withPort_ctr : (s.withPort b).ctr = s.ctr := rfl
@[simp] theorem withPort_buf : (s.withPort b).buf = s.buf := rfl
@[simp] theorem withPort_len : (s.withPort b).len = s.len := rfl
@[simp] theorem withPort_cur : (s.withPort b).cur = s.cur := rfl
@[simp] theorem withPort_pos : (s.withPort b).pos = s.pos := rfl
@[simp] theorem withPort_cmdPort : (s.withPort b).cmdPort = b := rfl
@[simp] theorem withPort_resPort : (s.withPort b).resPort = s.resPort := rfl
@[simp] theorem withPort_resetLine : (s.withPort b).resetLine = s.resetLine := rfl
@[simp] theorem withPort_resets : (s.withPort b).resets = s.resets := rfl
@[simp] theorem withPort_trace : (s.withPort b).trace = s.trace := rfl
end withPort

section refillShift
variable (s : State)
@[simp] theorem refillShift_cfg : (refillShift s).cfg = s.cfg := rfl
@[simp] theorem refillShift_constructed : (refillShift s).constructed = s.constructed := rfl
@[simp] theorem refillShift_key : (refillShift s).key = s.key := rfl
@[simp] theorem refillShift_iv : (refillShift s).iv = s.iv := rfl
@[simp] theorem refillShift_ctr : (refillShift s).ctr = s.ctr := rfl
@[simp] theorem refillShift_buf : (refillShift s).buf = Memory.copyUp s.buf 0 s.cur (s.len - s.cur) := rfl
@[simp] theorem refillShift_len : (refillShift s).len = s.len - s.cur := rfl
@[simp] theorem refillShift_cur : (refillShift s).cur = 0 := rfl
@[simp] theorem refillShift_pos : (refillShift s).pos = s.pos := rfl
@[simp] theorem refillShift_cmdPort : (refillShift s).cmdPort = s.cmdPort := rfl
@[simp] theorem refillShift_resPort : (refillShift s).resPort = s.resPort := rfl
@[simp] theorem refillShift_resetLine : (refillShift s).resetLine = s.resetLine := rfl
@[simp] theorem refillShift_resets : (refillShift s).resets = s.resets := rfl
@[simp] theorem refillShift_trace : (refillShift s).trace = s.trace := rfl
end refillShift

section refillBlock
variable (E : Cipher) (s : State)
@[simp] theorem refillBlock_cfg : (refillBlock E s).cfg = s.cfg := rfl
@[simp] theorem refillBlock_constructed : (refillBlock E s).constructed = s.constructed := rfl
@[simp] theorem refillBlock_key : (refillBlock E s).key = s.key := rfl
@[simp] theorem refillBlock_iv : (refillBlock E s).iv = s.iv := rfl
@[simp] theorem refillBlock_ctr : (refillBlock E s).ctr = beinc s.ctr := rfl
@[simp] theorem refillBlock_buf : (refillBlock E s).buf = Memory.writeBytes s.buf s.len (encryptBlock E s.cfg s.key s.ctr) := rfl
@[simp] theorem refillBlock_len : (refillBlock E s).len = s.len + s.cfg.blockBytes := rfl
@[simp] theorem refillBlock_cur : (refillBlock E s).cur = s.cur := rfl
@[simp] theorem refillBlock_pos : (refillBlock E s).pos = s.pos := rfl
@[simp] theorem refillBlock_cmdPort : (refillBlock E s).cmdPort = s.cmdPort := rfl
@[simp] theorem refillBlock_resPort : (refillBlock E s).resPort = s.resPort := rfl
@[simp] theorem refillBlock_resetLine : (refillBlock E s).resetLine = s.resetLine := rfl
@[simp] theorem refillBlock_resets : (refillBlock E s).resets = s.resets := rfl
@[simp] theorem refillBlock_trace : (refillBlock E s).trace = s.trace ++ [.cipherEncrypt s.ctr] := rfl
end refillBlock

end Sys2Proof.Machine
end

