-- ==== Sys2Proof/Laws/Lookahead.lean ====
section
/-! SUPPORT. What the shared generator operations can do to the state, said once: they touch the lookahead
`(ctr, buf, len, cur)` and the ghost, and the observer sees only encrypt requests. -/

namespace Sys2Proof.Machine

/-- From `s` to `t` only the lookahead and the ghost have changed, and only encrypt requests were made. -/
structure LookaheadStep (s t : State) : Prop where
  cfg : t.cfg = s.cfg
  constructed : t.constructed = s.constructed
  key : t.key = s.key
  iv : t.iv = s.iv
  cmdPort : t.cmdPort = s.cmdPort
  resPort : t.resPort = s.resPort
  resetLine : t.resetLine = s.resetLine
  resets : t.resets = s.resets
  trace : ∃ blocks : List (List Byte), t.trace = s.trace ++ blocks.map PortEvent.cipherEncrypt

theorem LookaheadStep.refl (s : State) : LookaheadStep s s where
  cfg := rfl
  constructed := rfl
  key := rfl
  iv := rfl
  cmdPort := rfl
  resPort := rfl
  resetLine := rfl
  resets := rfl
  trace := ⟨[], by simp⟩

theorem LookaheadStep.trans {s t u : State} (h : LookaheadStep s t) (k : LookaheadStep t u) : LookaheadStep s u where
  cfg := k.cfg.trans h.cfg
  constructed := k.constructed.trans h.constructed
  key := k.key.trans h.key
  iv := k.iv.trans h.iv
  cmdPort := k.cmdPort.trans h.cmdPort
  resPort := k.resPort.trans h.resPort
  resetLine := k.resetLine.trans h.resetLine
  resets := k.resets.trans h.resets
  trace := by
    obtain ⟨bs, hb⟩ := h.trace
    obtain ⟨cs, hc⟩ := k.trace
    exact ⟨bs ++ cs, by rw [hc, hb, List.map_append, List.append_assoc]⟩

theorem LookaheadStep.sameHost {s t : State} (h : LookaheadStep s t) : SameHost s t :=
  ⟨h.cfg, h.cmdPort, h.resetLine, h.resets⟩

theorem LookaheadStep.sameIdentity {s t : State} (h : LookaheadStep s t) : SameIdentity s t :=
  ⟨h.constructed, h.key, h.iv⟩

theorem refillShift_lookahead (s : State) : LookaheadStep s (refillShift s) where
  cfg := rfl
  constructed := rfl
  key := rfl
  iv := rfl
  cmdPort := rfl
  resPort := rfl
  resetLine := rfl
  resets := rfl
  trace := ⟨[], by simp⟩

theorem refillBlock_lookahead (E : Cipher) (s : State) : LookaheadStep s (refillBlock E s) where
  cfg := rfl
  constructed := rfl
  key := rfl
  iv := rfl
  cmdPort := rfl
  resPort := rfl
  resetLine := rfl
  resets := rfl
  trace := ⟨[s.ctr], rfl⟩

/-- What a turn-bounded refill loop keeps, if one block keeps it. -/
theorem refillLoop_induct {E : Cipher} {P : State → Prop}
    (hblock : ∀ s, P s → s.len + s.cfg.blockBytes ≤ capacity s.cfg → P (refillBlock E s)) :
    ∀ (turns : Nat) (s : State), P s → P (refillLoop E turns s)
  | 0, _, h => h
  | turns + 1, s, h => by
    unfold refillLoop
    split
    · exact refillLoop_induct hblock turns _ (hblock s h ‹_›)
    · exact h

theorem refill_lookahead (E : Cipher) (s : State) : LookaheadStep s (refill E s) :=
  refillLoop_induct (P := LookaheadStep s) (fun _ h _ => h.trans (refillBlock_lookahead E _)) _ _ (refillShift_lookahead s)

theorem refill_pos (E : Cipher) (s : State) : (refill E s).pos = s.pos :=
  refillLoop_induct (P := fun t => t.pos = s.pos) (fun _ h _ => h) _ _ rfl

theorem refill_cur (E : Cipher) (s : State) : (refill E s).cur = 0 :=
  refillLoop_induct (P := fun t => t.cur = 0) (fun _ h _ => h) _ _ rfl

theorem refill_canonical (E : Cipher) (s : State) (h : Memory.wf s.buf = true) : Memory.wf (refill E s).buf = true :=
  refillLoop_induct (P := fun t => Memory.wf t.buf = true) (fun _ h _ => wf_writeBytes _ _ _ h) _ _ (wf_copyUp _ _ _ _ h)

@[simp] theorem length_encryptBlock (E : Cipher) (cfg : Params) (key x : List Byte) :
    (encryptBlock E cfg key x).length = cfg.blockBytes := by
  simp [encryptBlock]

/-- A turn of REFILL stores inside the buffer only (20_memory R41). -/
theorem refillBlock_outside (E : Cipher) (s : State) (h : s.len + s.cfg.blockBytes ≤ capacity s.cfg) (a : Nat)
    (ha : capacity s.cfg ≤ a) : Memory.lookup (refillBlock E s).buf a = Memory.lookup s.buf a := by
  rw [refillBlock_buf, lookup_writeBytes, if_neg]
  rw [length_encryptBlock]; omega

/-- REFILL stores inside the buffer only, where fewer bytes are unconsumed than the buffer holds (20_memory R41). -/
theorem refill_outside (E : Cipher) (s : State) (h : s.len - s.cur ≤ capacity s.cfg) :
    SameOutsideBuffer s (refill E s) := by
  refine (refillLoop_induct (E := E) (P := fun t => t.cfg = s.cfg ∧ SameOutsideBuffer s t) ?_ (capacity s.cfg)
    (refillShift s) ⟨rfl, ?_⟩).2
  · rintro t ⟨hcfg, ht⟩ hfit
    refine ⟨hcfg, fun a ha => ?_⟩
    rw [refillBlock_outside E t hfit a (by rw [hcfg]; exact ha), ht a ha]
  · intro a ha
    exact lookup_copyUp_other _ _ _ _ _ (by omega)

theorem refillIfLow_cases (E : Cipher) (s : State) :
    (s.len - s.cur < s.cfg.blockBytes ∧ refillIfLow E s = refill E s) ∨
    (s.cfg.blockBytes ≤ s.len - s.cur ∧ refillIfLow E s = s) := by
  unfold refillIfLow
  split
  · exact .inl ⟨‹_›, rfl⟩
  · exact .inr ⟨by omega, rfl⟩

theorem blockBytes_le_capacity (cfg : Params) : cfg.blockBytes ≤ capacity cfg := Nat.le_max_right _ _

theorem capacity_pos (cfg : Params) : 0 < capacity cfg :=
  Nat.lt_of_lt_of_le cfg.blockBytes_pos (blockBytes_le_capacity cfg)

theorem refillIfLow_lookahead (E : Cipher) (s : State) : LookaheadStep s (refillIfLow E s) := by
  obtain ⟨-, h⟩ | ⟨-, h⟩ := refillIfLow_cases E s
  · rw [h]; exact refill_lookahead E s
  · rw [h]; exact .refl s

theorem refillIfLow_outside (E : Cipher) (s : State) : SameOutsideBuffer s (refillIfLow E s) := by
  obtain ⟨hlow, h⟩ | ⟨-, h⟩ := refillIfLow_cases E s
  · rw [h]
    have := blockBytes_le_capacity s.cfg
    exact refill_outside E s (by omega)
  · rw [h]; exact fun _ _ => rfl

theorem refillIfLow_canonical (E : Cipher) (s : State) (h : Memory.wf s.buf = true) :
    Memory.wf (refillIfLow E s).buf = true := by
  obtain ⟨-, e⟩ | ⟨-, e⟩ := refillIfLow_cases E s
  · rw [e]; exact refill_canonical E s h
  · rw [e]; exact h

theorem refillIfLow_pos (E : Cipher) (s : State) : (refillIfLow E s).pos = s.pos := by
  obtain ⟨-, h⟩ | ⟨-, h⟩ := refillIfLow_cases E s
  · rw [h, refill_pos]
  · rw [h]

theorem readBuf_ok {s : State} {a : Nat} {b : Byte} :
    readBuf s a = .ok b ↔ a < capacity s.cfg ∧ Memory.lookup s.buf a = some b := by
  unfold readBuf
  split
  · rename_i ha
    split <;> simp_all
  · simp_all

theorem xorBytes_length {s : State} : ∀ {src : List Byte} {a : Nat} {out : List Byte},
    xorBytes s a src = .ok out → out.length = src.length
  | [], _, out, h => by cases h; rfl
  | b :: bs, a, out, h => by
    unfold xorBytes at h
    split at h
    · cases h
    · split at h
      · cases h
      · rename_i rest hrest
        cases h
        simp [xorBytes_length hrest]

/-- Combining bytes answers exactly when every buffer byte on the way can be read, and then byte by byte. -/
theorem xorBytes_ok {s : State} : ∀ {src : List Byte} {a : Nat} {out : List Byte},
    xorBytes s a src = .ok out ↔
      out.length = src.length ∧ ∀ i (h : i < src.length), ∃ k, readBuf s (a + i) = .ok k ∧ out[i]? = some (src[i] ^^^ k)
  | [], a, out => by
    cases out <;> simp [xorBytes]
  | b :: bs, a, out => by
    unfold xorBytes
    constructor
    · intro h
      split at h
      · cases h
      · rename_i k hk
        split at h
        · cases h
        · rename_i rest hrest
          cases h
          obtain ⟨hl, hi⟩ := xorBytes_ok.1 hrest
          refine ⟨by simp [hl], fun i h => ?_⟩
          cases i with
          | zero => exact ⟨k, hk, by simp⟩
          | succ i =>
            obtain ⟨k', hk', ho⟩ := hi i (by simpa using h)
            exact ⟨k', by rw [show a + (i + 1) = a + 1 + i by omega]; exact hk', by simpa using ho⟩
    · rintro ⟨hl, hi⟩
      obtain ⟨k, hk, ho⟩ := hi 0 (by simp)
      simp only [Nat.add_zero] at hk
      rw [hk]
      cases out with
      | nil => simp at hl
      | cons o rest =>
        have hrest : xorBytes s (a + 1) bs = .ok rest := by
          refine xorBytes_ok.2 ⟨by simpa using hl, fun i h => ?_⟩
          obtain ⟨k', hk', ho'⟩ := hi (i + 1) (by simpa using h)
          exact ⟨k', by rw [show a + 1 + i = a + (i + 1) by omega]; exact hk', by simpa using ho'⟩
        rw [hrest]
        simp only [List.getElem?_cons_zero, List.getElem_cons_zero, Option.some.injEq] at ho
        simp [ho]

/-- Everything XORSTEP can do when it answers (40_primitives R117). -/
theorem xorStep_ok {E : Cipher} {dstLen : Nat} {src out : List Byte} {s t : State}
    (h : xorStep E dstLen src s = .ok (out, t)) :
    (min dstLen src.length = 0 ∧ out = [] ∧ t = s) ∨
    (min dstLen src.length ≠ 0 ∧
      out.length = min (min dstLen src.length) ((refillIfLow E s).len - (refillIfLow E s).cur) ∧
      xorBytes (refillIfLow E s) (refillIfLow E s).cur (src.take out.length) = .ok out ∧
      t = { refillIfLow E s with cur := (refillIfLow E s).cur + out.length, pos := s.pos + out.length }) := by
  unfold xorStep at h
  split at h
  · rename_i h0
    cases h
    exact .inl ⟨h0, rfl, rfl⟩
  · rename_i h0
    simp only at h
    split at h
    · cases h
    · rename_i o ho
      cases h
      have hl := xorBytes_length ho
      rw [List.length_take, Nat.min_eq_left (by omega)] at hl
      refine .inr ⟨h0, hl, by rw [hl]; exact ho, by rw [hl, refillIfLow_pos]⟩

theorem xorStep_lookahead {E : Cipher} {dstLen : Nat} {src out : List Byte} {s t : State}
    (h : xorStep E dstLen src s = .ok (out, t)) : LookaheadStep s t := by
  obtain ⟨-, -, rfl⟩ | ⟨-, -, -, rfl⟩ := xorStep_ok h
  · exact .refl _
  · have hl := refillIfLow_lookahead E s
    exact ⟨hl.cfg, hl.constructed, hl.key, hl.iv, hl.cmdPort, hl.resPort, hl.resetLine, hl.resets, hl.trace⟩

theorem xorStep_outside {E : Cipher} {dstLen : Nat} {src out : List Byte} {s t : State}
    (h : xorStep E dstLen src s = .ok (out, t)) : SameOutsideBuffer s t := by
  obtain ⟨-, -, rfl⟩ | ⟨-, -, -, rfl⟩ := xorStep_ok h
  · exact fun _ _ => rfl
  · exact refillIfLow_outside E s

theorem xorStep_canonical {E : Cipher} {dstLen : Nat} {src out : List Byte} {s t : State}
    (h : xorStep E dstLen src s = .ok (out, t)) (hwf : Memory.wf s.buf = true) : Memory.wf t.buf = true := by
  obtain ⟨-, -, rfl⟩ | ⟨-, -, -, rfl⟩ := xorStep_ok h
  · exact hwf
  · exact refillIfLow_canonical E s hwf

theorem xorStep_pos {E : Cipher} {dstLen : Nat} {src out : List Byte} {s t : State}
    (h : xorStep E dstLen src s = .ok (out, t)) : t.pos = s.pos + out.length := by
  obtain ⟨-, rfl, rfl⟩ | ⟨-, -, -, rfl⟩ := xorStep_ok h <;> rfl

/-- What a drained loop keeps, if one XORSTEP keeps it (41 R133). -/
theorem applyLoop_induct {E : Cipher} {P : State → Prop}
    (hstep : ∀ s n src out t, P s → xorStep E n src s = .ok (out, t) → P t) :
    ∀ (steps : Nat) (src dst : List Byte) (s t : State), P s → applyLoop E steps src s = .ok (dst, t) → P t
  | 0, _, _, _, _, h, e => by cases e; exact h
  | _ + 1, [], _, _, _, h, e => by cases e; exact h
  | steps + 1, b :: bs, dst, s, t, h, e => by
    unfold applyLoop at e
    split at e
    · cases e
    · rename_i out s₁ h₁
      split at e
      · cases e
      · rename_i rest s₂ h₂
        cases e
        exact applyLoop_induct hstep steps _ _ _ _ (hstep _ _ _ _ _ h h₁) h₂

theorem applyCore_lookahead {E : Cipher} {src dst : List Byte} {s t : State} (h : applyCore E src s = .ok (dst, t)) :
    LookaheadStep s t :=
  applyLoop_induct (P := LookaheadStep s) (fun _ _ _ _ _ hp hx => hp.trans (xorStep_lookahead hx)) _ _ _ _ _ (.refl s) h

theorem applyCore_outside {E : Cipher} {src dst : List Byte} {s t : State} (h : applyCore E src s = .ok (dst, t)) :
    SameOutsideBuffer s t := by
  refine (applyLoop_induct (P := fun u => u.cfg = s.cfg ∧ SameOutsideBuffer s u) ?_ _ _ _ _ _ ⟨rfl, fun _ _ => rfl⟩ h).2
  rintro u _ _ _ v ⟨hc, hu⟩ hx
  refine ⟨(xorStep_lookahead hx).cfg.trans hc, fun a ha => ?_⟩
  rw [xorStep_outside hx a (by rw [hc]; exact ha), hu a ha]

theorem applyCore_canonical {E : Cipher} {src dst : List Byte} {s t : State} (h : applyCore E src s = .ok (dst, t))
    (hwf : Memory.wf s.buf = true) : Memory.wf t.buf = true :=
  applyLoop_induct (P := fun u => Memory.wf u.buf = true) (fun _ _ _ _ _ hp hx => xorStep_canonical hx hp) _ _ _ _ _ hwf h

theorem seekCore_lookahead (E : Cipher) (offset : Nat) (s : State) : LookaheadStep s (seekCore E offset s) := by
  have h := refill_lookahead E { s with ctr := beadd s.iv (chunkIndex s.cfg offset), len := 0, cur := 0 }
  exact ⟨h.cfg, h.constructed, h.key, h.iv, h.cmdPort, h.resPort, h.resetLine, h.resets, h.trace⟩

theorem seekCore_outside (E : Cipher) (offset : Nat) (s : State) : SameOutsideBuffer s (seekCore E offset s) :=
  refill_outside E { s with ctr := beadd s.iv (chunkIndex s.cfg offset), len := 0, cur := 0 } (by simp)

theorem seekCore_canonical (E : Cipher) (offset : Nat) (s : State) (h : Memory.wf s.buf = true) :
    Memory.wf (seekCore E offset s).buf = true :=
  refill_canonical E { s with ctr := beadd s.iv (chunkIndex s.cfg offset), len := 0, cur := 0 } h

@[simp] theorem seekCore_pos (E : Cipher) (offset : Nat) (s : State) : (seekCore E offset s).pos = offset := rfl

@[simp] theorem seekCore_cur (E : Cipher) (offset : Nat) (s : State) :
    (seekCore E offset s).cur = intraBlock s.cfg offset := rfl

end Sys2Proof.Machine
end

