-- ==== Sys2Proof/Laws/Ports.lean ====
section
/-! SUPPORT. What the resource port's transactions can do (20_memory R55): for any request, what it takes to be answered, and
where it stops; then one inversion lemma for each of the four. -/

namespace Sys2Proof.Machine

/-! ### Any transaction -/

/-- An answered request: the resource had an answer that the request admits; it is taken and the request seen. -/
theorem askResource_ok {α : Type} {request : PortEvent} {admits : ResAnswer → Option α} {s t : State} {a : α}
    (h : askResource request admits s = .ok (a, t)) : ∃ answer rest, s.resPort = answer :: rest ∧ admits answer = some a ∧
      t = { s with resPort := rest, trace := s.trace ++ [request] } := by
  unfold askResource at h
  split at h
  · cases h
  · split at h
    · cases h; exact ⟨_, _, ‹_›, ‹_›, rfl⟩
    · cases h

/-- A request that stops: there was no answer, or one that the request does not admit; the request is seen either way. -/
theorem askResource_error {α : Type} {request : PortEvent} {admits : ResAnswer → Option α} {s : State} {stop : Stop}
    (h : askResource request admits s = .error stop) :
    (s.resPort = [] ∧ stop = .fault (.resourceSilent (s.trace ++ [request]))) ∨
    (∃ answer rest, s.resPort = answer :: rest ∧ admits answer = none ∧
      stop = .refusal (.resourceOutsideContract (s.trace ++ [request]))) := by
  unfold askResource at h
  split at h
  · cases h; exact .inl ⟨‹_›, rfl⟩
  · split at h
    · cases h
    · cases h; exact .inr ⟨_, _, ‹_›, ‹_›, rfl⟩

theorem askResource_of_silence {α : Type} {request : PortEvent} {admits : ResAnswer → Option α} {s : State}
    (h : s.resPort = []) : askResource request admits s = .error (.fault (.resourceSilent (s.trace ++ [request]))) := by
  simp [askResource, h]

theorem askResource_of_admitted {α : Type} {request : PortEvent} {admits : ResAnswer → Option α} {s : State}
    {answer : ResAnswer} {rest : List ResAnswer} {a : α} (h : s.resPort = answer :: rest) (ha : admits answer = some a) :
    askResource request admits s = .ok (a, { s with resPort := rest, trace := s.trace ++ [request] }) := by
  simp [askResource, h, ha, State.emit]

theorem askResource_of_unadmitted {α : Type} {request : PortEvent} {admits : ResAnswer → Option α} {s : State}
    {answer : ResAnswer} {rest : List ResAnswer} (h : s.resPort = answer :: rest) (ha : admits answer = none) :
    askResource request admits s = .error (.refusal (.resourceOutsideContract (s.trace ++ [request]))) := by
  simp [askResource, h, ha]

/-! ### Which answers a request admits -/

theorem readAnswer_some {len : BitVec 64} {answer : ResAnswer} {d : List Byte} {rstat : BitVec 32} :
    readAnswer len answer = some (d, rstat) ↔ answer = .read d rstat ∧ d.length ≤ len.toNat := by
  cases answer <;> simp only [readAnswer]
  all_goals grind

theorem writeAnswer_some {d : List Byte} {answer : ResAnswer} {m : Nat} {rstat : BitVec 32} :
    writeAnswer d answer = some (m, rstat) ↔ answer = .write m rstat ∧ m ≤ d.length := by
  cases answer <;> simp only [writeAnswer]
  all_goals grind

theorem seekAnswer_some {answer : ResAnswer} {a : BitVec 64} {rstat : BitVec 32} :
    seekAnswer answer = some (a, rstat) ↔ answer = .seek a rstat := by
  cases answer <;> simp [seekAnswer]

theorem closeAnswer_some {answer : ResAnswer} {rstat : BitVec 32} :
    closeAnswer answer = some rstat ↔ answer = .close rstat := by
  cases answer <;> simp [closeAnswer]

/-! ### The four transactions -/

theorem resRead_ok {len : BitVec 64} {s t : State} {d : List Byte} {rstat : BitVec 32}
    (h : resRead len s = .ok ((d, rstat), t)) : ∃ rest, s.resPort = .read d rstat :: rest ∧ d.length ≤ len.toNat ∧
      t = { s with resPort := rest, trace := s.trace ++ [.resRead len] } := by
  obtain ⟨answer, rest, hp, ha, rfl⟩ := askResource_ok h
  obtain ⟨rfl, hd⟩ := readAnswer_some.1 ha
  exact ⟨rest, hp, hd, rfl⟩

theorem resWrite_ok {d : List Byte} {s t : State} {m : Nat} {rstat : BitVec 32}
    (h : resWrite d s = .ok ((m, rstat), t)) : ∃ rest, s.resPort = .write m rstat :: rest ∧ m ≤ d.length ∧
      t = { s with resPort := rest, trace := s.trace ++ [.resWrite d] } := by
  obtain ⟨answer, rest, hp, ha, rfl⟩ := askResource_ok h
  obtain ⟨rfl, hm⟩ := writeAnswer_some.1 ha
  exact ⟨rest, hp, hm, rfl⟩

theorem resSeek_ok {offset a : BitVec 64} {whence : Whence} {s t : State} {rstat : BitVec 32}
    (h : resSeek offset whence s = .ok ((a, rstat), t)) : ∃ rest, s.resPort = .seek a rstat :: rest ∧
      t = { s with resPort := rest, trace := s.trace ++ [.resSeek offset whence] } := by
  obtain ⟨answer, rest, hp, ha, rfl⟩ := askResource_ok h
  cases seekAnswer_some.1 ha
  exact ⟨rest, hp, rfl⟩

theorem resClose_ok {s t : State} {rstat : BitVec 32} (h : resClose s = .ok (rstat, t)) :
    ∃ rest, s.resPort = .close rstat :: rest ∧ t = { s with resPort := rest, trace := s.trace ++ [.resClose] } := by
  obtain ⟨answer, rest, hp, ha, rfl⟩ := askResource_ok h
  cases closeAnswer_some.1 ha
  exact ⟨rest, hp, rfl⟩

theorem resRead_of_answer {len : BitVec 64} {s : State} {d : List Byte} {rstat : BitVec 32} {rest : List ResAnswer}
    (h : s.resPort = .read d rstat :: rest) (hd : d.length ≤ len.toNat) :
    resRead len s = .ok ((d, rstat), { s with resPort := rest, trace := s.trace ++ [.resRead len] }) :=
  askResource_of_admitted h (readAnswer_some.2 ⟨rfl, hd⟩)

theorem resWrite_of_answer {d : List Byte} {s : State} {m : Nat} {rstat : BitVec 32} {rest : List ResAnswer}
    (h : s.resPort = .write m rstat :: rest) (hm : m ≤ d.length) :
    resWrite d s = .ok ((m, rstat), { s with resPort := rest, trace := s.trace ++ [.resWrite d] }) :=
  askResource_of_admitted h (writeAnswer_some.2 ⟨rfl, hm⟩)

theorem resSeek_of_answer {offset a : BitVec 64} {whence : Whence} {s : State} {rstat : BitVec 32} {rest : List ResAnswer}
    (h : s.resPort = .seek a rstat :: rest) :
    resSeek offset whence s = .ok ((a, rstat), { s with resPort := rest, trace := s.trace ++ [.resSeek offset whence] }) :=
  askResource_of_admitted h (seekAnswer_some.2 rfl)

theorem resClose_of_answer {s : State} {rstat : BitVec 32} {rest : List ResAnswer}
    (h : s.resPort = .close rstat :: rest) :
    resClose s = .ok (rstat, { s with resPort := rest, trace := s.trace ++ [.resClose] }) :=
  askResource_of_admitted h (closeAnswer_some.2 rfl)

end Sys2Proof.Machine
end

