-- ==== Sys2Proof/Laws/Commands.lean ====
section
/-! SUPPORT. What each command can do when it answers a next state: one inversion lemma per meaning, and the runs of the
host's interface one step at a time. -/

namespace Sys2Proof.Machine

theorem runInit_cases (key iv : List Byte) (s : State) :
    (s.constructed = true ∧ runInit key iv s = s.raise .errAlreadyConstructed) ∨
    (s.constructed = false ∧ key.length ∉ s.cfg.keyLens ∧
      runInit key iv s = s.raise .errInvalidKeyLength) ∨
    (s.constructed = false ∧ key.length ∈ s.cfg.keyLens ∧ iv.length ≠ s.cfg.blockBytes ∧
      runInit key iv s = s.raise .errInvalidIvLength) ∨
    (s.constructed = false ∧ key.length ∈ s.cfg.keyLens ∧ iv.length = s.cfg.blockBytes ∧
      runInit key iv s = State.respond { s.emit (.cipherKeyLoad key) with
        key := key, iv := iv, ctr := iv, len := 0, cur := 0, constructed := true, pos := 0 } .ok 0 0 []) := by
  unfold runInit keyAccepted
  cases hc : s.constructed
  · by_cases hk : key.length ∈ s.cfg.keyLens
    · by_cases hv : iv.length = s.cfg.blockBytes <;> simp [hk, hv]
    · simp [hk]
  · simp

theorem runApply_next {E : Cipher} {data : List Byte} {s t : State} (h : runApply E data s = .next t) :
    (s.constructed = false ∧ t = s.raise .errNotConstructed) ∨
    (s.constructed = true ∧ ∃ dst u, applyCore E data s = .ok (dst, u) ∧
      t = u.respond .ok 0 (countField data.length) dst) := by
  unfold runApply at h
  split at h
  · cases h; exact .inl ⟨‹_›, rfl⟩
  · rename_i hc
    split at h
    · cases h
    · cases h; exact .inr ⟨by simpa using hc, _, _, ‹_›, rfl⟩

theorem runSeekto_cases (E : Cipher) (offset : BitVec 64) (s : State) :
    (s.constructed = false ∧ runSeekto E offset s = s.raise .errNotConstructed) ∨
    (s.constructed = true ∧ negativeOffset offset = true ∧ runSeekto E offset s = s.raise .errNegOffset) ∨
    (s.constructed = true ∧ negativeOffset offset = false ∧
      runSeekto E offset s = (seekCore E (streamOffset offset) s).respond .ok 0 offset []) := by
  unfold runSeekto
  cases hc : s.constructed
  · simp
  · cases hn : negativeOffset offset <;> simp

theorem runRd_next {E : Cipher} {len : BitVec 64} {s t : State} (h : runRd E len s = .next t) :
    (s.constructed = false ∧ t = s.raise .errNotConstructed) ∨
    (s.constructed = true ∧ ∃ d rstat rest out u, s.resPort = .read d rstat :: rest ∧ d.length ≤ len.toNat ∧
      applyCore E d { s with resPort := rest, trace := s.trace ++ [.resRead len] } = .ok (out, u) ∧
      t = u.respond (resourceStatus rstat) rstat (countField d.length) out) := by
  unfold runRd at h
  split at h
  · cases h; exact .inl ⟨‹_›, rfl⟩
  · rename_i hc
    split at h
    · rename_i stop _
      cases stop <;> cases h
    · rename_i d rstat s₁ hr
      split at h
      · cases h
      · rename_i out s₂ ha
        cases h
        obtain ⟨rest, hp, hd, rfl⟩ := resRead_ok hr
        exact .inr ⟨by simpa using hc, d, rstat, rest, out, s₂, hp, hd, ha, rfl⟩

theorem runWr_next {E : Cipher} {data : List Byte} {s t : State} (h : runWr E data s = .next t) :
    (s.constructed = false ∧ t = s.raise .errNotConstructed) ∨
    (s.constructed = true ∧ ∃ scratch u m rstat rest, applyCore E data s = .ok (scratch, u) ∧
      u.resPort = .write m rstat :: rest ∧ m ≤ scratch.length ∧
      t = State.respond { u with resPort := rest, trace := u.trace ++ [.resWrite scratch] }
        (resourceStatus rstat) rstat (countField m) []) := by
  unfold runWr at h
  split at h
  · cases h; exact .inl ⟨‹_›, rfl⟩
  · rename_i hc
    split at h
    · cases h
    · rename_i scratch s₁ ha
      split at h
      · rename_i stop _
        cases stop <;> cases h
      · rename_i m rstat s₂ hw
        cases h
        obtain ⟨rest, hp, hm, rfl⟩ := resWrite_ok hw
        exact .inr ⟨by simpa using hc, scratch, s₁, m, rstat, rest, ha, hp, hm, rfl⟩

theorem runSeek_next {E : Cipher} {offset : BitVec 64} {whence : Whence} {s t : State}
    (h : runSeek E offset whence s = .next t) :
    (s.constructed = false ∧ t = s.raise .errNotConstructed) ∨
    (s.constructed = true ∧ s.cfg.resCanSeek = false ∧ t = s.unsupported) ∨
    (s.constructed = true ∧ s.cfg.resCanSeek = true ∧ ∃ a rstat rest, s.resPort = .seek a rstat :: rest ∧
      ((rstat ≠ 0 ∧ t = State.respond { s with resPort := rest, trace := s.trace ++ [.resSeek offset whence] }
          .resource rstat a []) ∨
       (rstat = 0 ∧ negativeOffset a = true ∧
          t = State.raise { s with resPort := rest, trace := s.trace ++ [.resSeek offset whence] } .errNegOffset) ∨
       (rstat = 0 ∧ negativeOffset a = false ∧
          t = (seekCore E (streamOffset a) { s with resPort := rest, trace := s.trace ++ [.resSeek offset whence] }).respond
            .ok 0 a []))) := by
  unfold runSeek at h
  split at h
  · cases h; exact .inl ⟨‹_›, rfl⟩
  · rename_i hc
    simp only [Bool.not_eq_false] at hc
    split at h
    · cases h; exact .inr (.inl ⟨hc, ‹_›, rfl⟩)
    · rename_i hs
      simp only [Bool.not_eq_false] at hs
      split at h
      · rename_i stop _
        cases stop <;> cases h
      · rename_i a rstat s₁ hr
        obtain ⟨rest, hp, rfl⟩ := resSeek_ok hr
        refine .inr (.inr ⟨hc, hs, a, rstat, rest, hp, ?_⟩)
        split at h
        · cases h; exact .inl ⟨‹_›, rfl⟩
        · rename_i hr0
          simp only [ne_eq, not_not] at hr0
          split at h
          · cases h; exact .inr (.inl ⟨hr0, ‹_›, rfl⟩)
          · rename_i hn
            cases h; exact .inr (.inr ⟨hr0, by simpa using hn, rfl⟩)

theorem runClose_next {s t : State} (h : runClose s = .next t) :
    (s.constructed = false ∧ t = s.raise .errNotConstructed) ∨
    (s.constructed = true ∧ s.cfg.resCanClose = false ∧ t = s.unsupported) ∨
    (s.constructed = true ∧ s.cfg.resCanClose = true ∧ ∃ rstat rest, s.resPort = .close rstat :: rest ∧
      t = State.respond { s with resPort := rest, trace := s.trace ++ [.resClose] } (resourceStatus rstat) rstat 0 []) := by
  unfold runClose at h
  split at h
  · cases h; exact .inl ⟨‹_›, rfl⟩
  · rename_i hc
    simp only [Bool.not_eq_false] at hc
    split at h
    · cases h; exact .inr (.inl ⟨hc, ‹_›, rfl⟩)
    · rename_i hs
      simp only [Bool.not_eq_false] at hs
      split at h
      · rename_i stop _
        cases stop <;> cases h
      · rename_i rstat s₁ hr
        obtain ⟨rest, hp, rfl⟩ := resClose_ok hr
        cases h
        exact .inr (.inr ⟨hc, hs, rstat, rest, hp, rfl⟩)

/-- The three SEEK commands are one operation with three whence values. -/
theorem exec_seekInstr (whence : Whence) (offset : BitVec 64) (s : State) :
    exec (seekInstr whence offset) s = runSeek Config.encryptByte offset whence s := by
  cases whence <;> rfl

/-- Everything a step can do. -/
theorem step_cases (s : State) :
    (s.resetLine = true ∧ step s = .next (takeReset s)) ∨
    (s.resetLine = false ∧ (decode s.cmdPort = .noHeader ∨ decode s.cmdPort = .noPayload) ∧ step s = .next s) ∨
    (s.resetLine = false ∧ ∃ why rest, decode s.cmdPort = .illegal why rest ∧ step s = .next (illegalCommand rest s)) ∨
    (s.resetLine = false ∧ ∃ i rest, decode s.cmdPort = .command i rest ∧ step s = exec i (s.withPort rest)) := by
  unfold step fetch
  cases hr : s.resetLine
  · cases hd : decode s.cmdPort <;> simp
  · simp

theorem run_succ_of_next (M : Host.Core) (n : Nat) {s t : M.State} (h : M.step s = .next t) :
    M.run (n + 1) s = M.run n t := by
  show (match M.step s with | .next s' => M.run n s' | .fault r => .fault r | .refused r => .refused r) = _
  rw [h]

theorem run_succ_of_fault (M : Host.Core) (n : Nat) {s : M.State} {f : M.Fault} (h : M.step s = .fault f) :
    M.run (n + 1) s = .fault f := by
  show (match M.step s with | .next s' => M.run n s' | .fault r => .fault r | .refused r => .refused r) = _
  rw [h]

theorem run_succ_of_refused (M : Host.Core) (n : Nat) {s : M.State} {r : M.Refusal} (h : M.step s = .refused r) :
    M.run (n + 1) s = .refused r := by
  show (match M.step s with | .next s' => M.run n s' | .fault r => .fault r | .refused r => .refused r) = _
  rw [h]

end Sys2Proof.Machine
end

