-- ==== Sys2Proof/Laws/Header.lean ====
section
/-! SUPPORT. The header's three fields (30_encoding R80): packing and reading them are inverse; the masks of R88. -/

namespace Sys2Proof

@[simp] theorem headerOp_packHeader (op sub : BitVec 8) (arg : BitVec 64) : headerOp (packHeader op sub arg) = op := by
  unfold headerOp packHeader
  rw [BitVec.extractLsb'_append_eq_of_le (by omega)]
  exact BitVec.extractLsb'_append_eq_left

@[simp] theorem headerSub_packHeader (op sub : BitVec 8) (arg : BitVec 64) : headerSub (packHeader op sub arg) = sub := by
  unfold headerSub packHeader
  rw [BitVec.extractLsb'_append_eq_of_le (by omega)]
  exact BitVec.extractLsb'_append_eq_right

@[simp] theorem headerArg_packHeader (op sub : BitVec 8) (arg : BitVec 64) : headerArg (packHeader op sub arg) = arg := by
  unfold headerArg packHeader
  exact BitVec.extractLsb'_append_eq_right

@[simp] theorem packHeader_fields (h : BitVec 80) : packHeader (headerOp h) (headerSub h) (headerArg h) = h := by
  unfold packHeader headerOp headerSub headerArg
  ext i hi
  simp only [BitVec.getElem_append, BitVec.getElem_extractLsb']
  split
  · rw [Nat.zero_add, BitVec.getLsbD_eq_getElem hi]
  · split
    · rw [show 64 + (i - 64) = i by omega, BitVec.getLsbD_eq_getElem hi]
    · rw [show 72 + (i - 64 - 8) = i by omega, BitVec.getLsbD_eq_getElem hi]

theorem packHeader_inj {op sub op' sub' : BitVec 8} {arg arg' : BitVec 64} :
    packHeader op sub arg = packHeader op' sub' arg' ↔ op = op' ∧ sub = sub' ∧ arg = arg' := by
  constructor
  · intro h
    exact ⟨by simpa using congrArg headerOp h, by simpa using congrArg headerSub h, by simpa using congrArg headerArg h⟩
  · rintro ⟨rfl, rfl, rfl⟩; rfl

/-- The mask of every row but CLOSE keeps `op` and `sub` (R88). -/
theorem packHeader_and_opSubMask (op sub : BitVec 8) (arg : BitVec 64) :
    packHeader op sub arg &&& 0xFFFF0000000000000000 = packHeader op sub 0 := by
  have e : (0xFFFF0000000000000000 : BitVec 80) = packHeader (BitVec.allOnes 8) (BitVec.allOnes 8) 0 := by decide
  rw [e]
  unfold packHeader
  rw [BitVec.and_append, BitVec.and_append, BitVec.and_allOnes, BitVec.and_allOnes,
    show arg &&& (0 : BitVec 64) = 0 from BitVec.and_zero]

/-- The mask of CLOSE keeps everything (R88). -/
theorem and_fullMask (h : BitVec 80) : h &&& 0xFFFFFFFFFFFFFFFFFFFF = h := by
  rw [show (0xFFFFFFFFFFFFFFFFFFFF : BitVec 80) = BitVec.allOnes 80 by decide, BitVec.and_allOnes]

@[simp] theorem length_headerBytes (h : BitVec 80) : (headerBytes h).length = headerLength := by simp [headerBytes]

/-- Ten serialised bytes read back as the header (R81). -/
@[simp] theorem headerOfBytes_headerBytes (h : BitVec 80) : headerOfBytes (headerBytes h) = h := by
  apply BitVec.eq_of_toNat_eq
  rw [headerOfBytes, headerBytes, be_tobe, BitVec.toNat_ofNat, show (256 : Nat) ^ headerLength = 2 ^ 80 by decide,
    Nat.mod_mod, Nat.mod_eq_of_lt h.isLt]

/-- Any ten bytes are the serialised form of the header they hold (R81). -/
theorem headerBytes_headerOfBytes {bs : List Byte} (hl : bs.length = headerLength) :
    headerBytes (headerOfBytes bs) = bs := by
  have hlt : be bs < 2 ^ 80 := by
    have := be_lt bs
    rwa [hl, show (256 : Nat) ^ headerLength = 2 ^ 80 by decide] at this
  rw [headerBytes, headerOfBytes, BitVec.toNat_ofNat, Nat.mod_eq_of_lt hlt, ← hl, tobe_be]

end Sys2Proof
end

