-- ==== Sys2Proof/Laws/PerInstr.lean ====
section
/-! SUPPORT. Per command: the header the encoder writes selects the command's own row of the opcode map (30_encoding R88). -/

namespace Sys2Proof.Laws.EncodesItsRow

/-- The mnemonic of a command's row. -/
def mnemonic : Instr → String
  | .init _ _ => "INIT"
  | .apply _ => "APPLY"
  | .seekto _ => "SEEKTO"
  | .rd _ => "RD"
  | .wr _ => "WR"
  | .seekStart _ => "SEEK.START"
  | .seekCur _ => "SEEK.CUR"
  | .seekEnd _ => "SEEK.END"
  | .close => "CLOSE"

/-- Some row of R88 with the command's mnemonic is selected by its header. -/
def Statement (i : Instr) : Prop :=
  ∃ r ∈ opcodeRows, r.mnemonic = mnemonic i ∧ r.selects (encodeHeader i) = true

theorem selects_opSub {r : Row} {op sub : BitVec 8} (arg : BitVec 64) (hm : r.mask = 0xFFFF0000000000000000)
    (hp : r.pattern = packHeader op sub 0) : r.selects (packHeader op sub arg) = true := by
  rw [Row.selects, hm, hp, packHeader_and_opSubMask, beq_self_eq_true]

theorem init (key iv : List Byte) : Statement (.init key iv) :=
  ⟨⟨"INIT", 0x01000000000000000000, 0xFFFF0000000000000000⟩, by simp [opcodeRows], rfl, selects_opSub _ rfl (by decide)⟩

theorem apply (data : List Byte) : Statement (.apply data) :=
  ⟨⟨"APPLY", 0x02000000000000000000, 0xFFFF0000000000000000⟩, by simp [opcodeRows], rfl, selects_opSub _ rfl (by decide)⟩

theorem seekto (offset : BitVec 64) : Statement (.seekto offset) :=
  ⟨⟨"SEEKTO", 0x03000000000000000000, 0xFFFF0000000000000000⟩, by simp [opcodeRows], rfl, selects_opSub _ rfl (by decide)⟩

theorem rd (len : BitVec 64) : Statement (.rd len) :=
  ⟨⟨"RD", 0x10000000000000000000, 0xFFFF0000000000000000⟩, by simp [opcodeRows], rfl, selects_opSub _ rfl (by decide)⟩

theorem wr (data : List Byte) : Statement (.wr data) :=
  ⟨⟨"WR", 0x11000000000000000000, 0xFFFF0000000000000000⟩, by simp [opcodeRows], rfl, selects_opSub _ rfl (by decide)⟩

theorem seekStart (offset : BitVec 64) : Statement (.seekStart offset) :=
  ⟨⟨"SEEK.START", 0x12000000000000000000, 0xFFFF0000000000000000⟩, by simp [opcodeRows], rfl, selects_opSub _ rfl (by decide)⟩

theorem seekCur (offset : BitVec 64) : Statement (.seekCur offset) :=
  ⟨⟨"SEEK.CUR", 0x12010000000000000000, 0xFFFF0000000000000000⟩, by simp [opcodeRows], rfl, selects_opSub _ rfl (by decide)⟩

theorem seekEnd (offset : BitVec 64) : Statement (.seekEnd offset) :=
  ⟨⟨"SEEK.END", 0x12020000000000000000, 0xFFFF0000000000000000⟩, by simp [opcodeRows], rfl, selects_opSub _ rfl (by decide)⟩

theorem close : Statement .close :=
  ⟨⟨"CLOSE", 0x13000000000000000000, 0xFFFFFFFFFFFFFFFFFFFF⟩, by simp [opcodeRows], rfl, by decide⟩

end Sys2Proof.Laws.EncodesItsRow
end

