-- ==== Sys2Proof/Tests/Slice0.lean ====
section
/-! SUPPORT. Tests: ill-formed terms, words written out from 30_encoding, the vectors of 95_test_vectors on the stand-in
ciphers defined there, and for every statement with hypotheses a state that meets them. -/

namespace Sys2Proof.Tests
open Sys2Proof.Machine

/-! ## WellFormed refuses what no length field can carry -/

/-- A byte string whose length is given: nothing ever computes it. -/
theorem exists_bytes (n : Nat) : ∃ bs : List Byte, bs.length = n := ⟨List.replicate n 0, List.length_replicate⟩

theorem test_wf_refuses_long_key : ∃ key, (Instr.init key []).wf = false := by
  obtain ⟨key, h⟩ := exists_bytes (2 ^ 32)
  exact ⟨key, by simp [Instr.wf, h]⟩

theorem test_wf_refuses_long_iv : ∃ iv, (Instr.init [] iv).wf = false := by
  obtain ⟨iv, h⟩ := exists_bytes (2 ^ 32)
  exact ⟨iv, by simp [Instr.wf, h]⟩

theorem test_wf_refuses_long_apply : ∃ data, (Instr.apply data).wf = false := by
  obtain ⟨data, h⟩ := exists_bytes (2 ^ 64)
  exact ⟨data, by simp [Instr.wf, h]⟩

theorem test_wf_refuses_long_wr : ∃ data, (Instr.wr data).wf = false := by
  obtain ⟨data, h⟩ := exists_bytes (2 ^ 64)
  exact ⟨data, by simp [Instr.wf, h]⟩

/-! ## Words written out from R80 to R83, R88, with payload (P1 to P6 and section 2.8 of 95_test_vectors) -/

theorem test_decode_init :
    decode [0x01, 0x00, 0, 0, 0, 0x02, 0, 0, 0, 0x04, 0x5A, 0xA5, 0xFF, 0xFF, 0xFF, 0xFE, 0x77] =
      .command (.init [0x5A, 0xA5] [0xFF, 0xFF, 0xFF, 0xFE]) [0x77] := by decide

theorem test_decode_apply :
    decode [0x02, 0x00, 0, 0, 0, 0, 0, 0, 0, 0x03, 0x10, 0x11, 0x12] = .command (.apply [0x10, 0x11, 0x12]) [] := by decide

theorem test_decode_seekto :
    decode [0x03, 0x00, 0x7F, 0xFF, 0xFF, 0xFF, 0xFF, 0xFF, 0xFF, 0xFF] = .command (.seekto 0x7FFFFFFFFFFFFFFF) [] := by
  decide

theorem test_decode_rd : decode [0x10, 0x00, 0, 0, 0, 0, 0, 0, 0, 0x10] = .command (.rd 16) [] := by decide

theorem test_decode_wr :
    decode [0x11, 0x00, 0, 0, 0, 0, 0, 0, 0, 0x02, 0x4C, 0x44] = .command (.wr [0x4C, 0x44]) [] := by decide

theorem test_decode_seekStart : decode [0x12, 0x00, 0, 0, 0, 0, 0, 0, 0, 0x07] = .command (.seekStart 7) [] := by decide

theorem test_decode_seekCur :
    decode [0x12, 0x01, 0xFF, 0xFF, 0xFF, 0xFF, 0xFF, 0xFF, 0xFF, 0xFB] = .command (.seekCur (-5)) [] := by decide

theorem test_decode_seekEnd :
    decode [0x12, 0x02, 0xFF, 0xFF, 0xFF, 0xFF, 0xFF, 0xFF, 0xFF, 0xF4] = .command (.seekEnd (-12)) [] := by decide

theorem test_decode_close : decode [0x13, 0x00, 0, 0, 0, 0, 0, 0, 0, 0] = .command .close [] := by decide

/-- V110, V111: lengths are unsigned. -/
theorem test_decode_unsigned_lengths :
    decodeHeader 0x0200FFFFFFFFFFFFFFFF = .ok (.apply 18446744073709551615) ∧
    decodeHeader 0x0100FFFFFFFFFFFFFFFF = .ok (.init 4294967295 4294967295) := by decide

/-- V112 to V125. -/
theorem test_decode_illegal :
    decodeHeader 0x00000000000000000000 = .error .reservedOpcode ∧
    decodeHeader 0x04000000000000000000 = .error .reservedOpcode ∧
    decodeHeader 0x0F000000000000000000 = .error .reservedOpcode ∧
    decodeHeader 0x14000000000000000000 = .error .reservedOpcode ∧
    decodeHeader 0xFF000000000000000000 = .error .reservedOpcode ∧
    decodeHeader 0x01010000001000000010 = .error .reservedSub ∧
    decodeHeader 0x02010000000000000001 = .error .reservedSub ∧
    decodeHeader 0x03800000000000000000 = .error .reservedSub ∧
    decodeHeader 0x10020000000000000001 = .error .reservedSub ∧
    decodeHeader 0x11FF0000000000000001 = .error .reservedSub ∧
    decodeHeader 0x12030000000000000000 = .error .reservedWhence ∧
    decodeHeader 0x12FF0000000000000000 = .error .reservedWhence ∧
    decodeHeader 0x13000000000000000001 = .error .closeArg ∧
    decodeHeader 0x13010000000000000000 = .error .reservedSub := by decide

/-- V118: an illegal header takes no payload. -/
theorem test_illegal_keeps_payload :
    decode [0x02, 0x01, 0, 0, 0, 0, 0, 0, 0, 0x01, 0x78] = .illegal .reservedSub [0x78] := by decide

/-- Every table word, all operand bits 0, decodes to its row. -/
theorem test_table_words :
    decodeTableWord 80 0x01000000000000000000 = some (.init [] []) ∧
    decodeTableWord 80 0x02000000000000000000 = some (.apply []) ∧
    decodeTableWord 80 0x03000000000000000000 = some (.seekto 0) ∧
    decodeTableWord 80 0x10000000000000000000 = some (.rd 0) ∧
    decodeTableWord 80 0x11000000000000000000 = some (.wr []) ∧
    decodeTableWord 80 0x12000000000000000000 = some (.seekStart 0) ∧
    decodeTableWord 80 0x12010000000000000000 = some (.seekCur 0) ∧
    decodeTableWord 80 0x12020000000000000000 = some (.seekEnd 0) ∧
    decodeTableWord 80 0x13000000000000000000 = some .close := by decide

/-- A length field asks for its payload, and the model places zeros there (log 14). -/
theorem test_table_word_payload :
    decodeTableWord 80 0x02000000000000000003 = some (.apply [0, 0, 0]) ∧
    decodeTableWord 80 0x01000000000200000001 = some (.init [0, 0] [0]) := by decide

/-! ## Stand-in ciphers and states (section 0 of 95_test_vectors) -/

/-- `ID`: `E_K(x) = x`. -/
def idCipher : Cipher := fun _ x j => x.getD j 0

/-- `XK`: `E_K(x)[j] = x[j] xor K[j mod |K|]`. -/
def xkCipher : Cipher := fun key x j => x.getD j 0 ^^^ key.getD (j % key.length) 0

/-- `B = 4`, two-byte keys, a resource that can seek and close. -/
def params (cfgBuf : Nat) : Params := ⟨4, by decide, cfgBuf, [2], true, true⟩

/-- As `params`, on a resource that can neither seek nor close (V95). -/
def rigidParams : Params := ⟨4, by decide, 8, [2], false, false⟩

/-- An unconstructed instance whose resource will give the answers. -/
def unbuilt (cfg : Params) (answers : List ResAnswer) : State :=
  ⟨cfg, false, [1], [9, 9, 9, 9], [7, 7, 7, 7], [], 0, 0, 3, [], answers, false, 1, []⟩

/-- An instance right after INIT with key `5AA5`. -/
def built (cfg : Params) (iv : List Byte) (answers : List ResAnswer) : State :=
  ⟨cfg, true, [0x5A, 0xA5], iv, iv, [], 0, 0, 0, [], answers, false, 1, []⟩

/-- The state an outcome leaves. -/
def after : Host.Outcome State Fault Refusal → Option State
  | .next s => some s
  | _ => none

/-- What was seen when the core got stuck on a silent resource. -/
def seenAtHang : Host.Outcome State Fault Refusal → Option (List PortEvent)
  | .fault (.resourceSilent seen) => some seen
  | _ => none

/-- Whether an outcome is a next state. -/
def goesOn (o : Host.Outcome State Fault Refusal) : Bool := (after o).isSome

/-- What the vectors list of a state: `ctr`, `len`, `cur`, `pos`. -/
def shown (s : State) : Nat × Nat × Nat × Nat := (be s.ctr, s.len, s.cur, s.pos)

/-- `buf[0..len)`. -/
def bytesOf (s : State) : List (Option Byte) := (List.range s.len).map (Memory.lookup s.buf)

/-! ## Primitives -/

/-- V3, V5, V6. -/
theorem test_beinc : beinc [0, 0, 0xFF, 0xFF] = [0, 1, 0, 0] ∧ beinc [0xFF, 0xFF, 0xFF, 0xFF] = [0, 0, 0, 0] ∧
    beinc [0x12, 0xFF, 0x00, 0xFF] = [0x12, 0xFF, 0x01, 0x00] := by decide

/-- V14, V16, V17, V23. -/
theorem test_beadd : beadd [0x12, 0x34, 0x56, 0x78] 0x0FEDCBA9 = [0x22, 0x22, 0x22, 0x21] ∧
    beadd [0, 0, 0, 1] (2 ^ 32 + 5) = [0, 0, 0, 6] ∧ beadd [0x80, 0, 0, 0] (2 ^ 63 - 1) = [0x7F, 0xFF, 0xFF, 0xFF] ∧
    beadd [0xFE] 0x103 = [0x01] := by decide

/-- V26's and V28's second REFILL: a shift, whole blocks, and a full buffer made of leftovers. -/
theorem test_refill :
    (let t := refill idCipher { refill idCipher (built (params 6) [0, 0, 0xFF, 0xFE] []) with cur := 3 }
     shown t = (0x00010000, 5, 0, 0) ∧ bytesOf t = [some 0xFE, some 0, some 0, some 0xFF, some 0xFF]) ∧
    (let t := refill idCipher { refill idCipher (built (params 10) [0, 0, 0xFF, 0xFE] []) with cur := 6 }
     shown t = (0x00010002, 10, 0, 0) ∧
     bytesOf t = [some 0xFF, some 0xFF, some 0, some 1, some 0, some 0, some 0, some 1, some 0, some 1]) := by decide

/-- V24: no block fits behind the leftover byte. -/
theorem test_refill_without_room :
    (let t := refill idCipher { refill idCipher (built (params 0) [0, 0, 0xFF, 0xFE] []) with cur := 3 }
     shown t = (0x0000FFFF, 1, 0, 0) ∧ bytesOf t = [some 0xFE] ∧ encryptRequests t.trace = [[0, 0, 0xFF, 0xFE]]) := by decide

/-- V48's first step: the three-way minimum. -/
theorem test_xorstep :
    (match xorStep idCipher 2 [0x11, 0x22, 0x33] (built (params 8) [0, 0, 0, 0] []) with
     | .ok (out, t) => some (out, t.cur)
     | .error _ => none) = some ([0x11, 0x22], 2) := by decide

/-! ## Meanings: 95_test_vectors on the stand-in ciphers -/

/-- V70 and V78 in small, P3 command 1: success and the order of the checks. -/
theorem test_init :
    (let t := runInit [0x5A, 0xA5] [0xFF, 0xFF, 0xFF, 0xFE] (unbuilt (params 8) [])
     t.constructed = true ∧ t.key = [0x5A, 0xA5] ∧ be t.iv = 0xFFFFFFFE ∧ shown t = (0xFFFFFFFE, 0, 0, 0)) ∧
    lastResponse (runInit [1] [2] (built (params 8) [0, 0, 0, 0] [])) = some ⟨.errAlreadyConstructed, 0, 0, []⟩ := by decide

/-- V74, V75: the key is checked before the IV, and a refusal shows nothing on the cipher port (60 R212). -/
theorem test_init_refused :
    (runInit [1] [2] (unbuilt (params 8) [])).trace = [.response ⟨.errInvalidKeyLength, 0, 0, []⟩] ∧
    (runInit [1, 2] [2] (unbuilt (params 8) [])).trace = [.response ⟨.errInvalidIvLength, 0, 0, []⟩] := by decide

/-- V30: `APPLY 00*10` with `C = B`. -/
theorem test_apply :
    ((after (runApply idCipher (List.replicate 10 0) (built (params 4) [0, 0, 0xFF, 0xFE] []))).map fun t =>
      (shown t, lastOutput t)) =
      some ((0x00010001, 4, 2, 10), [0x00, 0x00, 0xFF, 0xFE, 0x00, 0x00, 0xFF, 0xFF, 0x00, 0x01]) := by decide

/-- P3: all 14 bytes in one APPLY, over the counter's wrap. -/
theorem test_apply_wraps :
    ((after (runApply xkCipher [0x10, 0x11, 0x12, 0x13, 0x14, 0x15, 0x16, 0x17, 0x18, 0x19, 0x1A, 0x1B, 0x1C, 0x1D]
        (built (params 8) [0xFF, 0xFF, 0xFF, 0xFE] []))).map fun t => (shown t, lastOutput t)) =
      some ((0x00000002, 8, 6, 14),
        [0xB5, 0x4B, 0xB7, 0x48, 0xB1, 0x4F, 0xB3, 0x4D, 0x42, 0xBC, 0x40, 0xBE, 0x46, 0xB8]) := by decide

/-- V58. -/
theorem test_seekto :
    (let t := runSeekto idCipher 9 (built (params 8) [0xFF, 0xFF, 0xFF, 0xFE] [])
     shown t = (0x00000002, 8, 1, 9) ∧ lastResponse t = some ⟨.ok, 0, 9, []⟩ ∧
     bytesOf t = [some 0, some 0, some 0, some 0, some 0, some 0, some 0, some 1]) := by decide

/-- V59, V66. -/
theorem test_seekto_edges :
    (let t := runSeekto idCipher 0x7FFFFFFFFFFFFFFF (built (params 8) [0, 0, 0, 0] [])
     shown t = (0x00000001, 8, 3, 0x7FFFFFFFFFFFFFFF) ∧ encryptRequests t.trace = [[0xFF, 0xFF, 0xFF, 0xFF], [0, 0, 0, 0]]) ∧
    runSeekto idCipher 0x8000000000000000 (built (params 8) [0, 0, 0, 0] []) =
      (built (params 8) [0, 0, 0, 0] []).raise .errNegOffset := by decide

/-- V82. -/
theorem test_rd :
    ((after (runRd xkCipher 12 (built (params 8) [0, 0, 0, 0xFF]
        [.read [0x12, 0xE0, 0x16, 0x16, 0x15, 0x89, 0x7B, 0xF2, 0x15, 0xF7, 0x17, 0xE0] 0]))).map fun t =>
      (shown t, lastOutput t)) =
      some ((0x00000103, 8, 4, 12), [0x48, 0x45, 0x4C, 0x4C, 0x4F, 0x2C, 0x20, 0x57, 0x4F, 0x52, 0x4C, 0x44]) := by decide

/-- V89's read, with V91's five bytes: what came is decrypted and the status handed on. -/
theorem test_rd_short :
    ((after (runRd xkCipher 16 (built (params 8) [0, 0, 0, 0xFF] [.read [0x12, 0xE0, 0x16, 0x16, 0x15] 1]))).map fun t =>
      (t.pos, lastResponse t)) = some (5, some ⟨.resource, 1, 5, [0x48, 0x45, 0x4C, 0x4C, 0x4F]⟩) := by decide

/-- V94: a partial write advances the position by the whole length. -/
theorem test_wr :
    ((after (runWr xkCipher [0x48, 0x45, 0x4C, 0x4C, 0x4F, 0x2C, 0x20, 0x57, 0x4F, 0x52, 0x4C, 0x44]
        (built (params 8) [0, 0, 0, 0xFF] [.write 5 2]))).map fun t =>
      (shown t, resourceRequests t.trace, lastResponse t)) =
      some ((0x00000103, 8, 4, 12),
        [.resWrite [0x12, 0xE0, 0x16, 0x16, 0x15, 0x89, 0x7B, 0xF2, 0x15, 0xF7, 0x17, 0xE0]],
        some ⟨.resource, 2, 5, []⟩) := by decide

/-- 00_scope R9, 20_memory R58, 42 R153: on a silent resource WR's encrypt requests and then its unanswered request are
seen (the blocks and the ciphertext of R153's example); RD's request is seen alone. -/
theorem test_hang_shows_requests :
    seenAtHang (runWr xkCipher [0x48, 0x45, 0x4C, 0x4C, 0x4F, 0x2C, 0x20, 0x57, 0x4F, 0x52, 0x4C, 0x44]
        (built (params 8) [0, 0, 0, 0xFF] [])) =
      some [.cipherEncrypt [0, 0, 0, 0xFF], .cipherEncrypt [0, 0, 1, 0], .cipherEncrypt [0, 0, 1, 1],
        .cipherEncrypt [0, 0, 1, 2],
        .resWrite [0x12, 0xE0, 0x16, 0x16, 0x15, 0x89, 0x7B, 0xF2, 0x15, 0xF7, 0x17, 0xE0]] ∧
    seenAtHang (runRd xkCipher 16 (built (params 8) [0, 0, 0, 0xFF] [])) = some [.resRead 16] := by decide

/-- V84, V92, V96: SEEK -5, CUR resolved to 7; a refused seek; a seek resolved to a negative position. -/
theorem test_seek :
    ((after (runSeek xkCipher (-5) .cur (built (params 8) [0, 0, 0, 0xFF] [.seek 7 0]))).map fun t =>
      (shown t, resourceRequests t.trace, lastResponse t)) =
      some ((0x00000102, 8, 3, 7), [.resSeek (-5) .cur], some ⟨.ok, 0, 7, []⟩) ∧
    ((after (runSeek xkCipher (-1) .start (built (params 8) [0, 0, 0, 0xFF] [.seek 0 3]))).map fun t =>
      (shown t, lastResponse t)) = some ((0x000000FF, 0, 0, 0), some ⟨.resource, 3, 0, []⟩) ∧
    ((after (runSeek xkCipher 0 .start (built (params 8) [0, 0, 0, 0xFF] [.seek (-4) 0]))).map fun t =>
      (shown t, lastResponse t)) = some ((0x000000FF, 0, 0, 0), some ⟨.errNegOffset, 0, 0, []⟩) := by decide

/-- V93, V95. -/
theorem test_close :
    ((after (runClose (built (params 8) [0, 0, 0, 0xFF] [.close 0]))).map fun t => (t.resPort, t.trace)) =
      some ([], [.resClose, .response ⟨.ok, 0, 0, []⟩]) ∧
    ((after (runClose (built rigidParams [0, 0, 0, 0] [.close 0]))).map fun t => (t.resPort, t.trace)) =
      some ([.close 0], [.response ⟨.unsupported, 0, 0, []⟩]) := by decide

/-- V97 and 60 R204: the first instruction after reset is refused unless it is INIT, and its bytes are taken. -/
theorem test_first_step_after_reset :
    ((after (step (State.reset.withFetchWord 80 0x11000000000000000001))).map fun t => (t.cmdPort, t.trace)) =
      some ([], [.response ⟨.errNotConstructed, 0, 0, []⟩]) := by rfl

/-- 70 R231: reset abandons a command of which only part has arrived. -/
theorem test_reset_abandons_partial_command :
    ((after (step { built (params 8) [0, 0, 0, 0] [] with resetLine := true, cmdPort := [0x02, 0x00, 0, 0] })).map
      fun t => (t.cmdPort, t.constructed, t.resetLine, t.resets)) = some ([], false, false, 2) := by rfl

/-- The model's choice (log 9): where a whole command stands at the front, reset leaves every byte on the port, a partly
arrived command behind it included. -/
theorem test_reset_keeps_unaccepted_bytes :
    portAfterReset (encode .close ++ [0x02, 0x00]) = encode .close ++ [0x02, 0x00] ∧
    portAfterReset (headerBytes 0 ++ [0x02]) = headerBytes 0 ++ [0x02] := by decide

/-! ## A state for the hypotheses of every statement -/

/-- Constructed, nothing generated yet. -/
def ready (answers : List ResAnswer) : State := built (params 8) [0, 0, 0, 0xFF] answers

/-- Unconstructed, empty. -/
def fresh (answers : List ResAnswer) : State := unbuilt (params 8) answers

/-- Constructed, with a whole buffer of readable bytes. -/
def loaded : State :=
  { ready [] with buf := [(0, 1), (1, 2), (2, 3), (3, 4), (4, 5), (5, 6), (6, 7), (7, 8)], len := 8 }

theorem unbuilt_inv (cfg : Params) (answers : List ResAnswer) (h : cfg.blockBytes = 4) :
    Inv Config.encryptByte (unbuilt cfg answers) where
  sizes := ⟨rfl, fun _ _ => rfl, h.symm, h.symm, Nat.le_refl _, Nat.zero_le _⟩
  unconstructed_empty := fun _ => ⟨rfl, rfl⟩
  stream := fun h => nomatch h

theorem built_inv (cfg : Params) (answers : List ResAnswer) (h : cfg.blockBytes = 4) (hk : 2 ∈ cfg.keyLens) :
    Inv Config.encryptByte (built cfg [0, 0, 0, 0xFF] answers) where
  sizes := ⟨rfl, fun _ _ => rfl, h.symm, h.symm, Nat.le_refl _, Nat.zero_le _⟩
  unconstructed_empty := fun h => nomatch h
  stream := fun _ =>
    { key_accepted := decide_eq_true hk
      aligned := Nat.zero_mod _
      counter := by
        simp only [built, State.nextBlock, State.avail, counterValues, counterBits, h]
        decide
      content := fun i hi => nomatch (Nat.not_lt_zero i hi)
      filled := .inl rfl }

theorem ready_inv (answers : List ResAnswer) : Inv Config.encryptByte (ready answers) :=
  built_inv _ _ rfl (by decide)

theorem fresh_inv (answers : List ResAnswer) : Inv Config.encryptByte (fresh answers) := unbuilt_inv _ _ rfl

theorem witness_DecoderAgreesWithOpcodeMap :
    decodeHeader 0x1201FFFFFFFFFFFFFFFF = .ok (.seekCur (-1)) ∧
    ⟨"SEEK.CUR", 0x12010000000000000000, 0xFFFF0000000000000000⟩ ∈ opcodeRows ∧
    Row.selects ⟨"SEEK.CUR", 0x12010000000000000000, 0xFFFF0000000000000000⟩ 0x1201FFFFFFFFFFFFFFFF = true := by decide

theorem witness_OpcodeRowsDisjoint : ∃ r ∈ opcodeRows, r.selects 0x13000000000000000000 = true := by decide

theorem witness_DecodeOfEncode : (Instr.init [1] [2, 3]).wf = true ∧ (Instr.apply []).wf = true ∧
    (Instr.seekEnd (-1)).wf = true ∧ Instr.close.wf = true := by decide

theorem witness_EncodeOfDecode : decode (encode (.wr [0x4C, 0x44]) ++ [0x77]) = .command (.wr [0x4C, 0x44]) [0x77] := by
  decide

/-- Each clause of R89 at its boundary. -/
theorem witness_IllegalHeadersFault :
    IllegalHeader 0x04000000000000000000 ∧ IllegalHeader 0x01010000000000000000 ∧ IllegalHeader 0x12030000000000000000 ∧
    IllegalHeader 0x13000000000000000001 ∧ ¬ IllegalHeader 0x12020000000000000000 ∧
    ({ ready [] with cmdPort := headerBytes 0x04000000000000000000 ++ [0x78] }).resetLine = false := by
  unfold IllegalHeader; decide

theorem witness_StepRunsDecodedCommand :
    ({ ready [] with cmdPort := encode (.apply [1]) }).resetLine = false ∧
    decode ({ ready [] with cmdPort := encode (.apply [1]) }).cmdPort = .command (.apply [1]) [] ∧
    (Instr.apply [1]).wf = true := by decide

theorem witness_IdleCoreHoldsState : (ready []).resetLine = false ∧ (ready []).cmdPort = [] := by decide

theorem witness_IncompleteCommandWaits :
    decode (List.replicate 9 0) = .noHeader ∧ decode [0x02, 0, 0, 0, 0, 0, 0, 0, 0, 2, 0x78] = .noPayload := by decide

theorem witness_ResetStepUnconstructs : ({ ready [] with resetLine := true }).resetLine = true := rfl

/-- Both edges are taken: READY is left by reset, UNCONSTRUCTED by INIT. -/
theorem witness_LifecycleEdges :
    ((after (step { ready [] with resetLine := true })).map State.constructed) = some false ∧
    ((after (step { fresh [] with cmdPort := encode (.init [1, 2] [3, 4, 5, 6]) })).map State.constructed) =
      some true := by constructor <;> rfl

theorem witness_UnconstructedRegistersUnobservable :
    (fresh []).constructed = false ∧
    ((after (exec (.init [1, 2] [3, 4, 5, 6]) (fresh []))).map State.constructed) = some true ∧
    ((after (exec (.rd 1) (fresh []))).map State.constructed) = some false := by decide

theorem witness_StaticParametersNeverChange : goesOn (step (ready [])) = true := rfl

theorem witness_StepKeepsInv : Inv Config.encryptByte { ready [] with cmdPort := encode (.apply [1]) } ∧
    goesOn (step { ready [] with cmdPort := encode (.apply [1]) }) = true := by
  refine ⟨?_, rfl⟩
  have h := ready_inv []
  exact ⟨⟨h.1.1, h.1.2, h.1.3, h.1.4, h.1.5, h.1.6⟩, h.2, fun hc => ⟨(h.3 hc).1, (h.3 hc).2, (h.3 hc).3, (h.3 hc).4, (h.3 hc).5⟩⟩

theorem witness_BufferNeverMisread : Inv Config.encryptByte (ready []) := ready_inv []

theorem witness_CommandFrames :
    (goesOn (exec (.apply [1]) (ready [])) = true ∧ isInit (.apply [1]) = false ∧ usesResource (.apply [1]) = false) ∧
    (goesOn (exec (.init [1, 2] [3, 4, 5, 6]) (fresh [])) = true ∧ isInit (.init [1, 2] [3, 4, 5, 6]) = true) ∧
    goesOn (exec .close (ready [.close 0])) = true := by
  refine ⟨⟨?_, ?_, ?_⟩, ⟨?_, ?_⟩, ?_⟩ <;> rfl

theorem witness_OneResponsePerCommand :
    (Instr.rd 2).wf = true ∧ goesOn (exec (.rd 2) (ready [.read [1, 2] 0])) = true ∧
    carriesOutput (.rd 2) .ok = true ∧ carriesOutput (.rd 2) .errNotConstructed = false := by
  refine ⟨?_, ?_, ?_, ?_⟩ <;> rfl

theorem witness_StatusesEachCommandCanGive :
    ((after (exec .close (ready [.close 0]))).bind lastResponse) = some ⟨.ok, 0, 0, []⟩ := by decide

/-- Each kind of fault: of a command, of an illegal header, of a SEEK the resource resolves to a negative position. -/
theorem witness_FaultsChangeNothing :
    ((after (step { ready [] with cmdPort := encode (.seekto (-1)) })).map State.trace) =
      some [.response ⟨.errNegOffset, 0, 0, []⟩] ∧
    ((after (step { ready [] with cmdPort := headerBytes 0 ++ [0x78] })).map State.trace) =
      some [.response ⟨.errIllegalCmd, 0, 0, []⟩] ∧
    ((after (step { ready [.seek (-1) 0] with cmdPort := encode (.seekStart 0) })).map State.trace) =
      some [.resSeek 0 .start, .response ⟨.errNegOffset, 0, 0, []⟩] ∧
    (ready []).resetLine = false ∧ Status.errNegOffset.isFault = true ∧ Status.errIllegalCmd.isFault = true := by
  refine ⟨?_, ?_, ?_, ?_, ?_, ?_⟩ <;> rfl

theorem witness_NothingReadsTheTrace : goesOn (exec (.wr [1, 2]) (ready [.write 2 0])) = true := rfl

theorem witness_NothingReadsTheGhost : goesOn (exec (.apply [1, 2]) (ready [])) = true := rfl

/-- A memory that differs from the state's in a stale byte only. -/
theorem witness_StaleBytesNeverMatter :
    Memory.wf ({ loaded with cur := 1 }).buf = true ∧ Memory.wf (Memory.write loaded.buf 0 0xEE) = true ∧
    (∀ j, j < ({ loaded with cur := 1 } : State).avail →
      Memory.lookup (Memory.write loaded.buf 0 0xEE) (1 + j) = Memory.lookup loaded.buf (1 + j)) ∧
    goesOn (exec (.apply [1]) { loaded with cur := 1 }) = true := by
  refine ⟨rfl, rfl, ?_, rfl⟩
  change ∀ j, j < 7 → _
  decide

theorem witness_OtherCommandsNeedInit : (fresh []).constructed = false ∧ isInit (.seekto 0) = false := by decide

theorem witness_InitConstructs : (fresh []).constructed = false ∧ [1, 2].length ∈ (fresh []).cfg.keyLens ∧
    [3, 4, 5, 6].length = (fresh []).cfg.blockBytes := by decide

theorem witness_InitRefusals : (ready []).constructed = true ∧ (fresh []).constructed = false ∧
    [1].length ∉ (fresh []).cfg.keyLens ∧ [1, 2].length ∈ (fresh []).cfg.keyLens ∧
    [3, 4, 5].length ≠ (fresh []).cfg.blockBytes := by decide

theorem witness_BeincAddsOne : (0xFE : Byte) ≠ 0xFF := by decide

theorem witness_RefillLeavesWholeBlocks :
    SizesOk (ready []) ∧ StreamOk Config.encryptByte (ready []) ∧ (ready []).avail = 0 :=
  ⟨(ready_inv []).sizes, (ready_inv []).stream rfl, rfl⟩

theorem witness_XorstepCountAndProgress :
    ((xorStep idCipher 0 [1] (ready [])).toOption.map Prod.fst) = some [] ∧
    ((xorStep idCipher 1 [1, 2] (ready [])).toOption.map fun p => p.1.length) = some 1 ∧
    ((applyCore idCipher [1, 2] (ready [])).toOption.map fun p => p.1.length) = some 2 ∧ [1, 2].length ≤ 2 := by decide

theorem witness_ApplyOutputsStream : Inv Config.encryptByte (ready []) ∧ (ready []).constructed = true :=
  ⟨ready_inv [], rfl⟩

theorem witness_ApplyEmptyDoesNothing : (ready []).constructed = true := rfl

/-- Data that reach exactly to the end of the unconsumed bytes. -/
theorem witness_ApplyWithinLookahead : loaded.constructed = true ∧ Readable loaded ∧
    loaded.cfg.blockBytes ≤ loaded.avail ∧ [1, 2, 3, 4, 5, 6, 7, 8].length ≤ loaded.avail := by
  refine ⟨rfl, ⟨by decide, fun i hi => Option.isSome_iff_exists.1 ?_⟩, by decide, by decide⟩
  exact (by decide : ∀ i, i < 8 → (Memory.lookup loaded.buf (0 + i)).isSome = true) i hi

theorem witness_SeektoMapsOffset : (ready []).constructed = true ∧ (0 : Int) ≤ (0 : BitVec 64).toInt ∧
    0 ≤ (0x7FFFFFFFFFFFFFFF : BitVec 64).toInt ∧ (ready []).iv.length = (ready []).cfg.blockBytes := by decide

theorem witness_SeektoRefusesNegative : (ready []).constructed = true ∧ (0x8000000000000000 : BitVec 64).toInt < 0 ∧
    (0xFFFFFFFFFFFFFFFF : BitVec 64).toInt < 0 := by decide

theorem witness_SeektoForgetsHistory : loaded.cfg = (ready []).cfg ∧ SameIdentity (ready []) loaded ∧
    (0 : Int) ≤ (5 : BitVec 64).toInt ∧ (ready []).iv.length = (ready []).cfg.blockBytes ∧
    goesOn (exec (.seekto 5) (ready [])) = true ∧ goesOn (exec (.seekto 5) loaded) = true :=
  ⟨rfl, ⟨rfl, rfl, rfl⟩, by decide, rfl, rfl, rfl⟩

/-- Exactly as many bytes as were asked for; a failing read; no bytes. -/
theorem witness_RdDecryptsWhatCame : Inv Config.encryptByte (ready [.read [1, 2] 0]) ∧
    (ready [.read [1, 2] 0]).resPort = .read [1, 2] 0 :: [] ∧ [1, 2].length ≤ (2 : BitVec 64).toNat :=
  ⟨ready_inv _, rfl, by decide⟩

theorem witness_RdOfNothingLeavesGenerator : (ready [.read [] 1]).constructed = true ∧
    (ready [.read [] 1]).resPort = .read [] 1 :: [] := ⟨rfl, rfl⟩

theorem witness_WrEncryptsThenWrites : Inv Config.encryptByte (ready [.write 2 0]) ∧
    (ready [.write 2 0]).resPort = .write 2 0 :: [] ∧ 2 ≤ [1, 2].length := ⟨ready_inv _, rfl, by decide⟩

theorem witness_SeekRepositionsBoth : (ready [.seek 7 0]).constructed = true ∧ (ready [.seek 7 0]).cfg.resCanSeek = true ∧
    (ready [.seek 7 0]).resPort = .seek 7 0 :: [] ∧ (0 : Int) ≤ (7 : BitVec 64).toInt ∧
    (ready [.seek 7 0]).iv.length = (ready [.seek 7 0]).cfg.blockBytes := by decide

theorem witness_SeekUnsupportedDoesNothing : (built rigidParams [0, 0, 0, 0] []).constructed = true ∧
    (built rigidParams [0, 0, 0, 0] []).cfg.resCanSeek = false := by decide

theorem witness_SeekFailuresLeaveGenerator : (ready [.seek 0 3]).cfg.resCanSeek = true ∧
    (ready [.seek 0 3]).resPort = .seek 0 3 :: [] ∧ (3 : BitVec 32) ≠ 0 ∧
    (ready [.seek (-4) 0]).resPort = .seek (-4) 0 :: [] ∧ (-4 : BitVec 64).toInt < 0 := by decide

theorem witness_CloseForwards : (ready [.close 0]).constructed = true ∧ (ready [.close 0]).cfg.resCanClose = true ∧
    (ready [.close 0]).resPort = .close 0 :: [] := by decide

theorem witness_CloseUnsupportedDoesNothing : (built rigidParams [0, 0, 0, 0] []).constructed = true ∧
    (built rigidParams [0, 0, 0, 0] []).cfg.resCanClose = false := by decide

theorem witness_SilentResourceSticks : (ready []).constructed = true ∧ (ready []).resPort = [] ∧
    Inv Config.encryptByte (ready []) ∧ (ready []).cfg.resCanSeek = true ∧ (ready []).cfg.resCanClose = true :=
  ⟨rfl, rfl, ready_inv [], rfl, rfl⟩

/-- One byte, one count, too many; an answer of another kind for each request. -/
theorem witness_AnswersOutsideContractRefused : (ready [.read [1] 0]).constructed = true ∧
    (0 : BitVec 64).toNat < [(1 : Byte)].length ∧ Inv Config.encryptByte (ready [.write 2 0]) ∧
    [(1 : Byte)].length < 2 ∧ (ready [.close 0]).cfg.resCanSeek = true ∧ (ready [.close 0]).cfg.resCanClose = true ∧
    (∀ d r, ResAnswer.close 0 ≠ .read d r) ∧ (∀ m r, ResAnswer.close 0 ≠ .write m r) ∧
    (∀ a r, ResAnswer.close 0 ≠ .seek a r) ∧ (∀ r, ResAnswer.read [1] 0 ≠ .close r) :=
  ⟨rfl, by decide, ready_inv _, by decide, rfl, rfl, by simp, by simp, by simp, by simp⟩

theorem witness_PositionsStaySynchronised : Inv Config.encryptByte (ready [.write 1 2]) ∧
    goesOn (exec (.rd 2) (ready [.read [1] 0])) = true ∧ goesOn (exec (.wr [1, 2]) (ready [.write 1 2])) = true ∧
    goesOn (exec (.wr [1, 2]) (ready [.write 2 0])) = true ∧ goesOn (exec (.seekCur 0) (ready [.seek 5 0])) = true ∧
    (ready []).pos = 0 ∧ SeeksTo (ready [.seek 5 0]) 5 (.seekCur 0) :=
  ⟨ready_inv _, rfl, rfl, rfl, rfl, rfl, .inr ⟨.cur, 0, 5, [], rfl, rfl, rfl, by decide, by decide⟩⟩

theorem witness_SeekExactness : Inv Config.encryptByte (ready []) ∧ (ready []).constructed = true ∧
    SeeksTo (ready []) 2 (.seekto 2) ∧ SameIdentity (ready []) (ready []) ∧ (ready []).pos = 0 ∧ [1, 2].length = 2 :=
  ⟨ready_inv [], rfl, .inl ⟨2, rfl, by decide, by decide⟩, ⟨rfl, rfl, rfl⟩, rfl, rfl⟩

theorem witness_RoundTrip : Inv Config.encryptByte (fresh []) ∧ Inv Config.encryptByte (unbuilt (params 4) []) ∧
    (fresh []).constructed = false ∧ (unbuilt (params 4) []).cfg.blockBytes = (fresh []).cfg.blockBytes ∧
    [1, 2].length ∈ (fresh []).cfg.keyLens ∧ [1, 2].length ∈ (unbuilt (params 4) []).cfg.keyLens ∧
    [3, 4, 5, 6].length = (fresh []).cfg.blockBytes :=
  ⟨fresh_inv [], unbuilt_inv _ _ rfl, rfl, rfl, by decide, by decide, rfl⟩

/-- The first and the last offset of a two-byte text. -/
theorem witness_SeekConsistency : Inv Config.encryptByte (fresh []) ∧ (0 : Int) ≤ (0 : BitVec 64).toInt ∧
    (0 : BitVec 64).toInt.toNat < [1, 2].length ∧ (1 : BitVec 64).toInt.toNat < [1, 2].length :=
  ⟨fresh_inv [], by decide, by decide, by decide⟩

theorem witness_ChunkingIndependence : Inv Config.encryptByte (ready []) ∧ (ready []).constructed = true :=
  ⟨ready_inv [], rfl⟩

/-- Two buffer sizes, one stream. -/
theorem witness_BufferSizeIndependence :
    SameStream Config.encryptByte { ready [.read [1] 0] with cmdPort := encode (.rd 1) }
      { built (params 4) [0, 0, 0, 0xFF] [.read [1] 0] with cmdPort := encode (.rd 1) } := by
  have h := ready_inv [.read [1] 0]
  have k := built_inv (params 4) [.read [1] 0] rfl (by decide)
  exact ⟨⟨⟨h.1.1, h.1.2, h.1.3, h.1.4, h.1.5, h.1.6⟩, h.2,
      fun hc => ⟨(h.3 hc).1, (h.3 hc).2, (h.3 hc).3, (h.3 hc).4, (h.3 hc).5⟩⟩,
    ⟨⟨k.1.1, k.1.2, k.1.3, k.1.4, k.1.5, k.1.6⟩, k.2,
      fun hc => ⟨(k.3 hc).1, (k.3 hc).2, (k.3 hc).3, (k.3 hc).4, (k.3 hc).5⟩⟩,
    rfl, rfl, rfl, rfl, ⟨rfl, rfl, rfl⟩, rfl, rfl, rfl, rfl, rfl, rfl⟩

/-- Two offsets one period apart, the second still below `2^63`. -/
theorem witness_KeystreamPeriodic : Inv Config.encryptByte (ready []) ∧ (ready []).constructed = true ∧
    (0 : Int) ≤ (5 : BitVec 64).toInt ∧ (0x400000005 : BitVec 64).toInt = (5 : BitVec 64).toInt +
      ((ready []).cfg.blockBytes * 2 ^ (8 * (ready []).cfg.blockBytes) : Nat) :=
  ⟨ready_inv [], rfl, by decide, by decide⟩

theorem witness_EncryptRequestsFollowTheStream : Inv Config.encryptByte (ready [.read [1] 0]) ∧
    goesOn (exec (.apply [1]) (ready [])) = true ∧ goesOn (exec (.rd 1) (ready [.read [1] 0])) = true ∧
    goesOn (exec (.wr [1]) (ready [.write 1 0])) = true ∧ goesOn (exec (.seekto 4) (ready [])) = true ∧
    SeeksTo (ready []) 4 (.seekto 4) :=
  ⟨ready_inv _, rfl, rfl, rfl, rfl, .inl ⟨4, rfl, by decide, by decide⟩⟩

theorem witness_EncryptWorkBound : Inv Config.encryptByte (ready [.write 2 0]) ∧
    goesOn (exec (.apply [1, 2]) (ready [.write 2 0])) = true ∧ goesOn (exec (.wr [1, 2]) (ready [.write 2 0])) = true ∧
    Inv Config.encryptByte (ready [.read [1] 0]) ∧ goesOn (exec (.rd 2) (ready [.read [1] 0])) = true ∧
    (2 : BitVec 64).toNat = 2 ∧ [1, 2].length = 2 ∧
    Inv Config.encryptByte (ready []) ∧ exec (.rd 2) (ready []) = .fault (.resourceSilent [.resRead 2]) ∧
    (seenAtHang (exec (.wr [1, 2]) (ready []))).isSome = true :=
  ⟨ready_inv _, rfl, rfl, ready_inv _, rfl, rfl, rfl, ready_inv _, rfl, rfl⟩

end Sys2Proof.Tests
end

section
/-! SUPPORT. The counter and the keystream (40_primitives R110, R111; 20_memory R44). -/

namespace Sys2Proof.Machine

/-! ### BEINC -/

@[simp] theorem length_beinc (x : List Byte) : (beinc x).length = x.length := by
  unfold beinc
  induction x with
  | nil => rfl
  | cons b bs ih =>
    unfold beincCarry
    split <;> simp_all

/-- BEINC with its carry out as the digit above the first byte: exactly one more. -/
theorem be_beincCarry (x : List Byte) :
    be (beincCarry x).1 + (if (beincCarry x).2 then 256 ^ x.length else 0) = be x + 1 := by
  induction x with
  | nil => rfl
  | cons b bs ih =>
    have hlen : (beincCarry bs).1.length = bs.length := length_beinc bs
    unfold beincCarry
    split
    · rename_i out hout
      rw [hout] at ih hlen
      simp only [if_true] at ih
      simp only [be, hlen, List.length_cons, decide_eq_true_eq]
      split
      · rename_i hwrap
        obtain rfl : b = 0xFF := by bv_omega
        have hzero : ((0xFF : Byte) + 1).toNat = 0 := rfl
        have hff : (0xFF : Byte).toNat = 255 := rfl
        rw [hzero, hff, Nat.pow_succ]
        omega
      · rename_i hwrap
        have hb : (b + 1).toNat = b.toNat + 1 := by bv_omega
        rw [hb, Nat.add_mul]
        omega
    · rename_i out hout
      rw [hout] at ih hlen
      simp only [be, hlen, Bool.false_eq_true, if_false] at ih ⊢
      omega

/-- R111: BEINC adds one modulo `256^|x|`. -/
theorem be_beinc (x : List Byte) : be (beinc x) = (be x + 1) % 256 ^ x.length := by
  have hsum := be_beincCarry x
  have hlt : be (beinc x) < 256 ^ x.length := by simpa using be_lt (beinc x)
  change be (beinc x) + _ = _ at hsum
  rw [← hsum]
  split
  · rw [Nat.add_mod_right, Nat.mod_eq_of_lt hlt]
  · rw [Nat.add_zero, Nat.mod_eq_of_lt hlt]

/-! ### Counter values -/

theorem counterValues_eq (cfg : Params) : counterValues cfg = 256 ^ cfg.blockBytes := by
  rw [counterValues, counterBits, Nat.pow_mul]

/-- A block of `B` bytes with the value of block index `j` is the counter block of `j`. -/
theorem eq_counterBlock {cfg : Params} {x iv : List Byte} {j : Nat} (hl : x.length = cfg.blockBytes)
    (h : be x = (be iv + j) % counterValues cfg) : x = counterBlock cfg iv j := by
  rw [counterValues_eq] at h
  rw [counterBlock, counterValues_eq, tobe_mod]
  exact tobe_eq_of_be hl h

/-- BEINC goes from the counter value of one block to that of the next. -/
theorem be_beinc_counter {cfg : Params} {x : List Byte} {v j : Nat} (hl : x.length = cfg.blockBytes)
    (h : be x = (v + j) % counterValues cfg) : be (beinc x) = (v + (j + 1)) % counterValues cfg := by
  rw [be_beinc, hl, ← counterValues_eq, h, Nat.mod_add_mod, Nat.add_assoc]

/-- A byte of the cipher's answer for block `j` is a byte of the keystream. -/
theorem encryptBlock_getElem? (E : Cipher) (cfg : Params) (key iv : List Byte) (j : Nat) {b : Nat} (hb : b < cfg.blockBytes) :
    (encryptBlock E cfg key (counterBlock cfg iv j))[b]? = some (keystream E cfg key iv (j * cfg.blockBytes + b)) := by
  have hpos : 0 < cfg.blockBytes := cfg.blockBytes_pos
  have hdiv : (j * cfg.blockBytes + b) / cfg.blockBytes = j := by
    rw [Nat.add_comm, Nat.add_mul_div_right _ _ hpos, Nat.div_eq_of_lt hb, Nat.zero_add]
  have hmod : (j * cfg.blockBytes + b) % cfg.blockBytes = b := by
    rw [Nat.add_comm, Nat.add_mul_mod_self_right, Nat.mod_eq_of_lt hb]
  simp [encryptBlock, keystream, hdiv, hmod, hb]

/-! ### Combining data with the keystream -/

@[simp] theorem length_streamXor (E : Cipher) (s : State) (n : Nat) (data : List Byte) :
    (s.streamXor E n data).length = data.length := by
  simp [State.streamXor]

theorem streamXor_append (E : Cipher) (s : State) (n : Nat) (xs ys : List Byte) :
    s.streamXor E n (xs ++ ys) = s.streamXor E n xs ++ s.streamXor E (n + xs.length) ys := by
  unfold State.streamXor
  rw [List.mapIdx_append]
  congr 2
  funext i b
  rw [Nat.add_assoc, Nat.add_comm i]

/-- The keystream is a function of the parameters, the key and the IV, so a lookahead step does not change it. -/
theorem LookaheadStep.ks_eq {s t : State} (h : LookaheadStep s t) (E : Cipher) (n : Nat) : t.ks E n = s.ks E n := by
  simp only [State.ks, h.cfg, h.key, h.iv]

theorem LookaheadStep.streamXor_eq {s t : State} (h : LookaheadStep s t) (E : Cipher) (n : Nat) (data : List Byte) :
    t.streamXor E n data = s.streamXor E n data := by
  simp only [State.streamXor, h.ks_eq]

end Sys2Proof.Machine
end

section
/-! SUPPORT. What REFILL, XORSTEP and the loop of APPLY do to a constructed generator that meets the invariant (43_laws R170
to R172, R174): they keep it, they put out the keystream, and they ask the cipher for the next blocks in order (R181). -/

namespace Sys2Proof.Machine

/-! ### Encrypt requests in order (43_laws R181) -/

/-- The encrypt requests for the `n` blocks from the first that is not yet in the buffer. -/
def State.blockRequests (s : State) (n : Nat) : List PortEvent :=
  (List.range n).map fun j => .cipherEncrypt (counterBlock s.cfg s.iv (s.nextBlock + j))

/-- A lookahead step that asks the cipher for exactly the blocks it adds to the buffer, each once and in order. -/
structure BlocksInOrder (s t : State) : Prop where
  lookahead : LookaheadStep s t
  nextBlock_le : s.nextBlock ≤ t.nextBlock
  trace : t.trace = s.trace ++ s.blockRequests (t.nextBlock - s.nextBlock)

/-- Where no block is added and no request made, the requests are in order. -/
theorem LookaheadStep.blocksInOrder {s t : State} (h : LookaheadStep s t) (hn : t.nextBlock = s.nextBlock)
    (ht : t.trace = s.trace) : BlocksInOrder s t where
  lookahead := h
  nextBlock_le := hn.ge
  trace := by simp [ht, hn, State.blockRequests]

theorem BlocksInOrder.refl (s : State) : BlocksInOrder s s := (LookaheadStep.refl s).blocksInOrder rfl rfl

theorem BlocksInOrder.trans {s t u : State} (h : BlocksInOrder s t) (k : BlocksInOrder t u) : BlocksInOrder s u where
  lookahead := h.lookahead.trans k.lookahead
  nextBlock_le := h.nextBlock_le.trans k.nextBlock_le
  trace := by
    have hst := h.nextBlock_le
    have htu := k.nextBlock_le
    have hsplit : u.nextBlock - s.nextBlock = (t.nextBlock - s.nextBlock) + (u.nextBlock - t.nextBlock) := by omega
    have hnext (j : Nat) : s.nextBlock + (t.nextBlock - s.nextBlock + j) = t.nextBlock + j := by omega
    rw [k.trace, h.trace, hsplit]
    simp only [State.blockRequests, List.range_add, List.map_append, List.map_map, List.append_assoc, h.lookahead.cfg,
      h.lookahead.iv, Function.comp_def, hnext]

/-! ### The invariant while the buffer is being filled -/

/-- The invariant of a constructed generator without the fill level of R172, which does not hold between the turns of
REFILL. -/
structure Coherent (E : Cipher) (s : State) : Prop where
  sizes : SizesOk s
  key_accepted : keyAccepted s.cfg s.key = true
  aligned : (s.pos + s.avail) % s.cfg.blockBytes = 0
  counter : be s.ctr = (be s.iv + s.nextBlock) % counterValues s.cfg
  content : ∀ i, i < s.avail → Memory.lookup s.buf (s.cur + i) = some (s.ks E (s.pos + i))

theorem Inv.coherent {E : Cipher} {s : State} (h : Inv E s) (hc : s.constructed = true) : Coherent E s :=
  have hs := h.stream hc
  ⟨h.sizes, hs.key_accepted, hs.aligned, hs.counter, hs.content⟩

theorem Coherent.inv {E : Cipher} {s : State} (h : Coherent E s) (hc : s.constructed = true)
    (hfilled : s.len = 0 ∨ capacity s.cfg - s.cfg.blockBytes < s.len) : Inv E s where
  sizes := h.sizes
  unconstructed_empty := by simp [hc]
  stream _ := ⟨h.key_accepted, h.aligned, h.counter, h.content, hfilled⟩

theorem Coherent.ctr_eq {E : Cipher} {s : State} (h : Coherent E s) : s.ctr = counterBlock s.cfg s.iv s.nextBlock :=
  eq_counterBlock h.sizes.ctr_length h.counter

/-- The buffered stream ends where the next block begins. -/
theorem Coherent.nextBlock_mul {E : Cipher} {s : State} (h : Coherent E s) :
    s.nextBlock * s.cfg.blockBytes = s.pos + s.avail :=
  Nat.div_mul_cancel (Nat.dvd_of_mod_eq_zero h.aligned)

/-! ### REFILL -/

theorem refillShift_avail (s : State) : (refillShift s).avail = s.avail := rfl

theorem refillShift_sizes {s : State} (h : SizesOk s) : SizesOk (refillShift s) where
  canonical := wf_copyUp _ _ _ _ h.canonical
  inside a ha := by
    have hlen := h.len_le_capacity
    rw [refillShift_cfg] at ha
    rw [refillShift_buf, lookup_copyUp_other _ _ _ _ _ (by omega)]
    exact h.inside a ha
  iv_length := h.iv_length
  ctr_length := h.ctr_length
  cur_le_len := Nat.zero_le _
  len_le_capacity := (Nat.sub_le _ _).trans h.len_le_capacity

theorem refillShift_coherent {E : Cipher} {s : State} (h : Coherent E s) : Coherent E (refillShift s) where
  sizes := refillShift_sizes h.sizes
  key_accepted := h.key_accepted
  aligned := h.aligned
  counter := h.counter
  content i hi := by
    rw [refillShift_avail] at hi
    exact (lookup_copyUp_moved _ _ _ _ _ h.sizes.canonical (Nat.zero_le _) hi).trans (h.content i hi)

theorem refillBlock_avail (E : Cipher) {s : State} (h : s.cur ≤ s.len) :
    (refillBlock E s).avail = s.avail + s.cfg.blockBytes := Nat.sub_add_comm h

theorem refillBlock_nextBlock (E : Cipher) {s : State} (h : s.cur ≤ s.len) :
    (refillBlock E s).nextBlock = s.nextBlock + 1 := by
  rw [State.nextBlock, refillBlock_avail E h, refillBlock_pos, refillBlock_cfg, ← Nat.add_assoc]
  exact Nat.add_div_right _ s.cfg.blockBytes_pos

theorem refillBlock_sizes (E : Cipher) {s : State} (h : SizesOk s) (hfit : s.len + s.cfg.blockBytes ≤ capacity s.cfg) :
    SizesOk (refillBlock E s) where
  canonical := wf_writeBytes _ _ _ h.canonical
  inside a ha := (refillBlock_outside E s hfit a ha).trans (h.inside a ha)
  iv_length := h.iv_length
  ctr_length := (length_beinc _).trans h.ctr_length
  cur_le_len := h.cur_le_len.trans (Nat.le_add_right _ _)
  len_le_capacity := hfit

theorem refillBlock_coherent {E : Cipher} {s : State} (h : Coherent E s)
    (hfit : s.len + s.cfg.blockBytes ≤ capacity s.cfg) : Coherent E (refillBlock E s) where
  sizes := refillBlock_sizes E h.sizes hfit
  key_accepted := h.key_accepted
  aligned := by
    rw [refillBlock_avail E h.sizes.cur_le_len, refillBlock_pos, refillBlock_cfg, ← Nat.add_assoc, Nat.add_mod_right]
    exact h.aligned
  counter := by
    rw [refillBlock_nextBlock E h.sizes.cur_le_len]
    exact be_beinc_counter h.sizes.ctr_length h.counter
  content i hi := by
    have hcur := h.sizes.cur_le_len
    have hlen : s.cur + s.avail = s.len := Nat.add_sub_cancel' hcur
    rw [refillBlock_avail E hcur] at hi
    rw [refillBlock_buf, refillBlock_cur, refillBlock_pos, lookup_writeBytes, length_encryptBlock,
      (refillBlock_lookahead E s).ks_eq]
    by_cases hold : i < s.avail
    · rw [if_neg (by omega)]
      exact h.content i hold
    · rw [if_pos (by omega), h.ctr_eq, encryptBlock_getElem? _ _ _ _ _ (by omega), State.ks, h.nextBlock_mul]
      congr 2
      omega

theorem refillBlock_blocksInOrder {E : Cipher} {s : State} (h : Coherent E s) : BlocksInOrder s (refillBlock E s) where
  lookahead := refillBlock_lookahead E s
  nextBlock_le := by rw [refillBlock_nextBlock E h.sizes.cur_le_len]; exact Nat.le_succ _
  trace := by simp [refillBlock_nextBlock E h.sizes.cur_le_len, State.blockRequests, h.ctr_eq]

/-- REFILL keeps the stream and asks for the blocks it adds, in order (43_laws R171, R181). -/
theorem refill_coherent {E : Cipher} {s : State} (h : Coherent E s) :
    Coherent E (refill E s) ∧ BlocksInOrder s (refill E s) := by
  refine refillLoop_induct (P := fun t => Coherent E t ∧ BlocksInOrder s t) ?_ _ _
    ⟨refillShift_coherent h, (refillShift_lookahead s).blocksInOrder rfl rfl⟩
  rintro t ⟨hco, hord⟩ hfit
  exact ⟨refillBlock_coherent hco hfit, hord.trans (refillBlock_blocksInOrder hco)⟩

/-- With enough turns REFILL's loop ends because no further block fits (40_primitives R116). -/
theorem refillLoop_full (E : Cipher) : ∀ (turns : Nat) (s : State), capacity s.cfg ≤ s.len + turns →
    capacity s.cfg < (refillLoop E turns s).len + s.cfg.blockBytes
  | 0, s, h => by
    have hpos := s.cfg.blockBytes_pos
    simp only [refillLoop]
    omega
  | turns + 1, s, h => by
    have hpos := s.cfg.blockBytes_pos
    unfold refillLoop
    split
    · exact refillLoop_full E turns (refillBlock E s) (by simp only [refillBlock_cfg, refillBlock_len]; omega)
    · omega

/-- R115: after REFILL no further block fits. -/
theorem refill_full (E : Cipher) (s : State) : capacity s.cfg < (refill E s).len + s.cfg.blockBytes :=
  refillLoop_full E (capacity s.cfg) (refillShift s) (Nat.le_add_left _ _)

/-! ### XORSTEP -/

/-- R118: after the refill test at least one byte is unconsumed. -/
theorem refillIfLow_avail_pos (E : Cipher) (s : State) : 1 ≤ (refillIfLow E s).avail := by
  have hpos := s.cfg.blockBytes_pos
  have hcap := blockBytes_le_capacity s.cfg
  obtain ⟨-, h⟩ | ⟨henough, h⟩ := refillIfLow_cases E s <;> rw [h]
  · have hfull := refill_full E s
    rw [State.avail, refill_cur]
    omega
  · exact hpos.trans henough

/-- The refill test keeps the invariant, with the requests in order. -/
theorem refillIfLow_inv {E : Cipher} {s : State} (h : Inv E s) (hc : s.constructed = true) :
    Inv E (refillIfLow E s) ∧ BlocksInOrder s (refillIfLow E s) := by
  obtain ⟨-, e⟩ | ⟨-, e⟩ := refillIfLow_cases E s <;> rw [e]
  · obtain ⟨hco, hord⟩ := refill_coherent (h.coherent hc)
    have hfull := refill_full E s
    have hcap := blockBytes_le_capacity s.cfg
    refine ⟨hco.inv (hord.lookahead.constructed.trans hc) (.inr ?_), hord⟩
    rw [hord.lookahead.cfg]
    omega
  · exact ⟨h, .refl s⟩

/-- R170: combining bytes with the unconsumed buffer bytes is combining them with the keystream from `pos`. -/
theorem Coherent.xorBytes_eq {E : Cipher} {s : State} (h : Coherent E s) {src : List Byte} (hl : src.length ≤ s.avail) :
    xorBytes s s.cur src = .ok (s.streamXor E s.pos src) := by
  refine xorBytes_ok.2 ⟨length_streamXor .., fun i hi => ⟨s.ks E (s.pos + i), readBuf_ok.2 ⟨?_, h.content i (by omega)⟩, ?_⟩⟩
  · have hcur := h.sizes.cur_le_len
    have hlen := h.sizes.len_le_capacity
    rw [State.avail] at hl
    omega
  · simp [State.streamXor, hi]

/-- The state with `n` more bytes consumed. -/
def State.consume (s : State) (n : Nat) : State := { s with cur := s.cur + n, pos := s.pos + n }

theorem consume_lookahead (s : State) (n : Nat) : LookaheadStep s (s.consume n) :=
  ⟨rfl, rfl, rfl, rfl, rfl, rfl, rfl, rfl, [], by simp [State.consume]⟩

/-- Consuming moves the position and the cursor together, so the buffered stream ends where it did. -/
theorem consume_end {s : State} {n : Nat} (hn : n ≤ s.avail) :
    (s.consume n).pos + (s.consume n).avail = s.pos + s.avail := by
  simp only [State.consume, State.avail] at hn ⊢
  omega

theorem consume_nextBlock {s : State} {n : Nat} (hn : n ≤ s.avail) : (s.consume n).nextBlock = s.nextBlock := by
  rw [State.nextBlock, consume_end hn]; rfl

theorem consume_inv {E : Cipher} {s : State} {n : Nat} (h : Inv E s) (hc : s.constructed = true) (hn : n ≤ s.avail) :
    Inv E (s.consume n) := by
  have hco := h.coherent hc
  have hcur : s.cur + n ≤ s.len := by
    have := h.sizes.cur_le_len
    rw [State.avail] at hn
    omega
  have hsizes : SizesOk (s.consume n) :=
    ⟨h.sizes.canonical, h.sizes.inside, h.sizes.iv_length, h.sizes.ctr_length, hcur, h.sizes.len_le_capacity⟩
  refine Coherent.inv ⟨hsizes, hco.key_accepted, ?_, ?_, fun i hi => ?_⟩ hc (h.stream hc).filled
  · rw [consume_end hn]; exact hco.aligned
  · rw [consume_nextBlock hn]; exact hco.counter
  · have hin : n + i < s.avail := by
      simp only [State.consume, State.avail] at hi ⊢
      omega
    have hbyte := hco.content (n + i) hin
    rw [← Nat.add_assoc, ← Nat.add_assoc] at hbyte
    exact hbyte

/-- A XORSTEP on non-empty data whose buffer bytes can be read: the refill test, then the bytes it combines are consumed
(40_primitives R117). -/
theorem xorStep_of_xorBytes {E : Cipher} {s : State} {src out : List Byte} {n : Nat} (hne : src ≠ [])
    (hn : n = min src.length (refillIfLow E s).avail)
    (h : xorBytes (refillIfLow E s) (refillIfLow E s).cur (src.take n) = .ok out) :
    xorStep E src.length src s = .ok (out, (refillIfLow E s).consume n) := by
  subst hn
  rw [State.avail] at h ⊢
  unfold xorStep
  rw [Nat.min_self, if_neg (List.length_pos_iff.2 hne).ne']
  simp only [h]
  rfl

/-- R117, R174: a XORSTEP on non-empty data combines at least one byte with the keystream, keeps the invariant, and makes
its requests in order. -/
theorem xorStep_of_inv {E : Cipher} {s : State} (h : Inv E s) (hc : s.constructed = true) {src : List Byte}
    (hne : src ≠ []) : ∃ n t, 1 ≤ n ∧ n ≤ src.length ∧
      xorStep E src.length src s = .ok (s.streamXor E s.pos (src.take n), t) ∧
      t.pos = s.pos + n ∧ Inv E t ∧ BlocksInOrder s t := by
  obtain ⟨hinv, hord⟩ := refillIfLow_inv h hc
  have hc₁ := hord.lookahead.constructed.trans hc
  have hsrc : 0 < src.length := List.length_pos_iff.2 hne
  have havail := refillIfLow_avail_pos E s
  obtain ⟨n, hn⟩ : ∃ n, n = min src.length (refillIfLow E s).avail := ⟨_, rfl⟩
  have hle : n ≤ (refillIfLow E s).avail := by omega
  have hxor := (hinv.coherent hc₁).xorBytes_eq (src := src.take n) ((List.length_take_le _ _).trans hle)
  refine ⟨n, (refillIfLow E s).consume n, by omega, by omega, ?_, ?_, consume_inv hinv hc₁ hle,
    hord.trans ((consume_lookahead _ n).blocksInOrder (consume_nextBlock hle) rfl)⟩
  · rw [hord.lookahead.streamXor_eq, refillIfLow_pos] at hxor
    exact xorStep_of_xorBytes hne hn hxor
  · rw [State.consume, refillIfLow_pos]

/-! ### The loop of APPLY -/

/-- R174, R181: with a turn per byte the loop combines all the data with the keystream, keeps the invariant, and makes its
requests in order. -/
theorem applyLoop_of_inv {E : Cipher} : ∀ (steps : Nat) (src : List Byte) (s : State), Inv E s → s.constructed = true →
    src.length ≤ steps → ∃ t, applyLoop E steps src s = .ok (s.streamXor E s.pos src, t) ∧
      t.pos = s.pos + src.length ∧ Inv E t ∧ BlocksInOrder s t
  | 0, [], s, h, _, _ => ⟨s, rfl, rfl, h, .refl s⟩
  | _ + 1, [], s, h, _, _ => ⟨s, rfl, rfl, h, .refl s⟩
  | steps + 1, b :: bs, s, h, hc, hl => by
    obtain ⟨n, t, hpos, hle, hx, hp, ht, hst⟩ := xorStep_of_inv h hc (List.cons_ne_nil b bs)
    have hc₁ := hst.lookahead.constructed.trans hc
    obtain ⟨u, hu, hup, hui, htu⟩ := applyLoop_of_inv steps ((b :: bs).drop n) t ht hc₁ (by rw [List.length_drop]; omega)
    have hlen : ((b :: bs).take n).length = n := List.length_take_of_le hle
    refine ⟨u, ?_, ?_, hui, hst.trans htu⟩
    · unfold applyLoop
      simp only [hx, length_streamXor, hlen, hu]
      rw [hst.lookahead.streamXor_eq, hp, ← List.take_append_drop n (b :: bs), streamXor_append, hlen]
      simp only [List.take_append_drop]
    · rw [hup, hp, List.length_drop]; omega

/-- What APPLY_core does to a constructed generator that meets the invariant (43_laws R174, R181). -/
theorem applyCore_of_inv {E : Cipher} {s : State} (h : Inv E s) (hc : s.constructed = true) (src : List Byte) :
    ∃ t, applyCore E src s = .ok (s.streamXor E s.pos src, t) ∧ t.pos = s.pos + src.length ∧ Inv E t ∧
      BlocksInOrder s t :=
  applyLoop_of_inv src.length src s h hc le_rfl

end Sys2Proof.Machine
end

section
/-! PROOFS. A resource that never answers (70_reset_and_hazards R242; log 6, 18): each command that asks it stops, stuck, with
its requests seen. -/

namespace Sys2Proof.Machine

theorem runRd_of_silence (E : Cipher) (len : BitVec 64) {s : State} (hc : s.constructed = true) (hp : s.resPort = []) :
    runRd E len s = .fault (.resourceSilent (s.trace ++ [.resRead len])) := by
  have hask : resRead len s = _ := askResource_of_silence hp
  simp [runRd, hc, hask, Stop.outcome]

/-- WR encrypts everything before it asks (R153), so its hang shows the requests of APPLY_core first. -/
theorem runWr_of_silence {E : Cipher} {data scratch : List Byte} {s u : State} (hc : s.constructed = true)
    (hcore : applyCore E data s = .ok (scratch, u)) (hp : s.resPort = []) :
    runWr E data s = .fault (.resourceSilent (u.trace ++ [.resWrite scratch])) := by
  have hask : resWrite scratch u = _ := askResource_of_silence ((applyCore_lookahead hcore).resPort.trans hp)
  simp [runWr, hc, hcore, hask, Stop.outcome]

theorem runSeek_of_silence (E : Cipher) (offset : BitVec 64) (whence : Whence) {s : State} (hc : s.constructed = true)
    (hs : s.cfg.resCanSeek = true) (hp : s.resPort = []) :
    runSeek E offset whence s = .fault (.resourceSilent (s.trace ++ [.resSeek offset whence])) := by
  have hask : resSeek offset whence s = _ := askResource_of_silence hp
  simp [runSeek, hc, hs, hask, Stop.outcome]

theorem runClose_of_silence {s : State} (hc : s.constructed = true) (hs : s.cfg.resCanClose = true)
    (hp : s.resPort = []) : runClose s = .fault (.resourceSilent (s.trace ++ [.resClose])) := by
  have hask : resClose s = _ := askResource_of_silence hp
  simp [runClose, hc, hs, hask, Stop.outcome]

/-- Settles O47: each command's hang is that of its resource request; WR's earlier encrypt requests are those of APPLY_core,
in order. -/
theorem silentResourceSticks : Obligations.SilentResourceSticks := by
  intro s hc hp
  refine ⟨fun len => runRd_of_silence _ len hc hp, fun hinv data => ?_, fun hs whence offset => ?_,
    fun hs => runClose_of_silence hc hs hp⟩
  · obtain ⟨u, hcore, -, -, hord⟩ := applyCore_of_inv hinv hc data
    refine ⟨u, hcore, hord.nextBlock_le, ?_⟩
    have hfault := runWr_of_silence hc hcore hp
    rw [hord.trace] at hfault
    exact hfault
  · rw [exec_seekInstr]
    exact runSeek_of_silence _ offset whence hc hs hp

end Sys2Proof.Machine
end

section
/-! PROOFS. Counter arithmetic (40_primitives R110 to R113): BEINC and BEADD as additions modulo `256^|x|`, and the bytes
BEINC changes. -/

namespace Sys2Proof.Machine

/-- `2^W` for a string of `B` bytes, as powers of the byte (00_scope R11). -/
theorem two_pow_bits (n : Nat) : 2 ^ (8 * n) = 256 ^ n := Nat.pow_mul ..

/-! ### BEINC -/

@[simp] theorem length_iterate_beinc (x : List Byte) : ∀ k : Nat, (beinc^[k] x).length = x.length
  | 0 => rfl
  | k + 1 => by rw [Function.iterate_succ_apply', length_beinc, length_iterate_beinc x k]

/-- R111: `k` BEINCs add `k` modulo `256^|x|`. -/
theorem be_iterate_beinc (x : List Byte) : ∀ k : Nat, be (beinc^[k] x) = (be x + k) % 256 ^ x.length
  | 0 => (Nat.mod_eq_of_lt (be_lt x)).symm
  | k + 1 => by
    rw [Function.iterate_succ_apply', be_beinc, length_iterate_beinc, be_iterate_beinc x k, Nat.mod_add_mod, Nat.add_assoc]

/-- A carry into a byte adds one to it, and goes on only where the byte wraps. -/
theorem beincCarry_cons_of_carry {b : Byte} {bs out : List Byte} (h : beincCarry bs = (out, true)) :
    beincCarry (b :: bs) = ((b + 1) :: out, decide (b + 1 = 0)) := by
  simp only [beincCarry, h]

theorem beincCarry_cons_of_stop {b : Byte} {bs out : List Byte} (h : beincCarry bs = (out, false)) :
    beincCarry (b :: bs) = (b :: out, false) := by
  simp only [beincCarry, h]

/-- The carry runs through every 0xFF byte and out of the first. -/
theorem beincCarry_replicate (k : Nat) : beincCarry (List.replicate k 0xFF) = (List.replicate k 0, true) := by
  induction k with
  | zero => rfl
  | succ k ih => exact beincCarry_cons_of_carry ih

/-- The carry stops at the last byte that is not 0xFF. -/
theorem beincCarry_append (x : List Byte) {b : Byte} (k : Nat) (hb : b ≠ 0xFF) :
    beincCarry (x ++ b :: List.replicate k 0xFF) = (x ++ (b + 1) :: List.replicate k 0, false) := by
  induction x with
  | nil =>
    have hstop : b + 1 ≠ 0 := by bv_omega
    rw [List.nil_append, beincCarry_cons_of_carry (beincCarry_replicate k), decide_eq_false hstop]
    rfl
  | cons a x ih => exact beincCarry_cons_of_stop ih

/-- Settles O29: the value law by the carry as one more digit, the changed bytes by where the carry stops. -/
theorem beincAddsOne : Obligations.BeincAddsOne := by
  intro x
  rw [two_pow_bits]
  refine ⟨length_beinc x, be_beinc x, fun k => ?_, fun k => ?_, fun b k hb => ?_⟩
  · rw [be_iterate_beinc, Nat.add_mod_mod]
  · rw [beinc, beincCarry_replicate]
  · rw [beinc, beincCarry_append x k hb]

/-! ### BEADD -/

@[simp] theorem length_beadd (x : List Byte) (n : Nat) : (beadd x n).length = x.length := by
  unfold beadd
  induction x with
  | nil => rfl
  | cons b bs ih => simp [beaddCarry, ih]

/-- One digit of BEADD: its sum byte, its carry and the remaining count together are what came in. -/
theorem beadd_digit (b c m : Nat) : (b + m % 256 + c) % 256 + ((b + m % 256 + c) / 256 + m / 256) * 256 = b + (c + m) := by
  omega

/-- BEADD with its carry and the remaining count as the digits above the first byte: exactly `n` more. -/
theorem be_beaddCarry (x : List Byte) (n : Nat) :
    be (beaddCarry x n).1 + ((beaddCarry x n).2.1 + (beaddCarry x n).2.2) * 256 ^ x.length = be x + n := by
  induction x with
  | nil => simp [beaddCarry, be]
  | cons b bs ih =>
    have hlen : (beaddCarry bs n).1.length = bs.length := length_beadd bs n
    obtain ⟨⟨out, c, m⟩, hrest⟩ : ∃ r, beaddCarry bs n = r := ⟨_, rfl⟩
    rw [hrest] at ih hlen
    have hbyte : (BitVec.ofNat 8 ((b.toNat + m % 256 + c) % 256)).toNat = (b.toNat + m % 256 + c) % 256 := by simp
    simp only [beaddCarry, hrest, be, hlen, hbyte, List.length_cons, Nat.pow_succ]
    calc _ = ((b.toNat + m % 256 + c) % 256 + ((b.toNat + m % 256 + c) / 256 + m / 256) * 256) * 256 ^ bs.length
          + be out := by ring
      _ = b.toNat * 256 ^ bs.length + (be out + (c + m) * 256 ^ bs.length) := by rw [beadd_digit]; ring
      _ = _ := by rw [ih, Nat.add_assoc]

/-- R113: BEADD adds modulo `256^|x|`. -/
theorem be_beadd (x : List Byte) (n : Nat) : be (beadd x n) = (be x + n) % 256 ^ x.length := by
  have hlt : be (beadd x n) < 256 ^ x.length := by simpa using be_lt (beadd x n)
  rw [← be_beaddCarry x n, Nat.add_mul_mod_self_right]
  exact (Nat.mod_eq_of_lt hlt).symm

/-- R113: a seek's BEADD reaches the counter that sequential BEINCs reach. -/
theorem iterate_beinc_eq_beadd (x : List Byte) (n : Nat) : beinc^[n] x = beadd x n :=
  be_inj (by simp) (by rw [be_iterate_beinc, be_beadd])

theorem beadd_beadd (x : List Byte) (m n : Nat) : beadd (beadd x m) n = beadd x (m + n) := by
  rw [← iterate_beinc_eq_beadd, ← iterate_beinc_eq_beadd, ← iterate_beinc_eq_beadd, Nat.add_comm m n,
    Function.iterate_add_apply]

/-- Settles O30: the two counters have one length and one value; composition is that of the repeated BEINC. -/
theorem beaddAddsModulo : Obligations.BeaddAddsModulo := by
  intro x m n
  rw [two_pow_bits]
  exact ⟨length_beadd x n, be_beadd x n, iterate_beinc_eq_beadd x n, beadd_beadd x m n⟩

end Sys2Proof.Machine
end

section
/-! PROOFS. What REFILL leaves, for any block transform and any content of the buffer (40_primitives R115, R116). -/

namespace Sys2Proof.Machine

/-! ### Counter blocks from any block on -/

theorem encryptBlock_getElem?_of_lt (E : Cipher) (cfg : Params) (key x : List Byte) {b : Nat} (hb : b < cfg.blockBytes) :
    (encryptBlock E cfg key x)[b]? = some (E key x b) := by
  simp [encryptBlock, hb]

/-- A block is the counter block of index 0 from itself. -/
theorem counterBlock_zero {cfg : Params} {x : List Byte} (hl : x.length = cfg.blockBytes) : counterBlock cfg x 0 = x := by
  refine (eq_counterBlock hl ?_).symm
  rw [counterValues_eq, ← hl, Nat.add_zero, Nat.mod_eq_of_lt (be_lt x)]

theorem be_counterBlock (cfg : Params) (x : List Byte) (j : Nat) :
    be (counterBlock cfg x j) = (be x + j) % counterValues cfg := by
  rw [counterBlock, be_tobe, ← counterValues_eq, Nat.mod_mod]

/-- BEINC goes from one counter block to the next. -/
theorem beinc_counterBlock (cfg : Params) (x : List Byte) (j : Nat) :
    beinc (counterBlock cfg x j) = counterBlock cfg x (j + 1) :=
  eq_counterBlock (by simp [counterBlock]) (be_beinc_counter (by simp [counterBlock]) (be_counterBlock cfg x j))

/-! ### The loop of REFILL -/

/-- `t` is `s` in the middle of REFILL: the unconsumed bytes moved to the start and `k` blocks behind them, for the `k`
counter values from `s.ctr` on. -/
structure Refilled (E : Cipher) (s : State) (k : Nat) (t : State) : Prop where
  lookahead : LookaheadStep s t
  sizes : SizesOk t
  pos : t.pos = s.pos
  cur : t.cur = 0
  len : t.len = s.avail + k * s.cfg.blockBytes
  ctr : t.ctr = counterBlock s.cfg s.ctr k
  moved : ∀ i, i < s.avail → Memory.lookup t.buf i = Memory.lookup s.buf (s.cur + i)
  blocks : ∀ j b, j < k → b < s.cfg.blockBytes →
    Memory.lookup t.buf (s.avail + j * s.cfg.blockBytes + b) = some (E s.key (counterBlock s.cfg s.ctr j) b)
  above : ∀ a, t.len ≤ a → Memory.lookup t.buf a = Memory.lookup s.buf a
  trace : t.trace = s.trace ++ (List.range k).map fun j => .cipherEncrypt (counterBlock s.cfg s.ctr j)

/-- REFILL's first part (R114): the unconsumed bytes at the start, and no block yet. -/
theorem refillShift_refilled (E : Cipher) {s : State} (h : SizesOk s) : Refilled E s 0 (refillShift s) where
  lookahead := refillShift_lookahead s
  sizes := refillShift_sizes h
  pos := rfl
  cur := rfl
  len := by simp [State.avail]
  ctr := (counterBlock_zero h.ctr_length).symm
  moved i hi := by
    have hmove := lookup_copyUp_moved _ _ _ _ _ h.canonical (Nat.zero_le s.cur) hi
    rwa [Nat.zero_add] at hmove
  blocks j b hj := absurd hj (Nat.not_lt_zero j)
  above a ha := lookup_copyUp_other _ _ _ _ _ (by rw [refillShift_len] at ha; omega)
  trace := by simp

/-- A turn of REFILL's loop (R114) puts the next block behind the others and leaves what stands elsewhere. -/
theorem Refilled.block {E : Cipher} {s t : State} {k : Nat} (h : Refilled E s k t)
    (hfit : t.len + t.cfg.blockBytes ≤ capacity t.cfg) : Refilled E s (k + 1) (refillBlock E t) := by
  have hcfg := h.lookahead.cfg
  have hlen := h.len
  have hnew (a : Nat) : Memory.lookup (refillBlock E t).buf a =
      if t.len ≤ a ∧ a < t.len + s.cfg.blockBytes
      then (encryptBlock E s.cfg s.key (counterBlock s.cfg s.ctr k))[a - t.len]? else Memory.lookup t.buf a := by
    rw [refillBlock_buf, lookup_writeBytes, length_encryptBlock, hcfg, h.lookahead.key, h.ctr]
  exact {
    lookahead := h.lookahead.trans (refillBlock_lookahead E t)
    sizes := refillBlock_sizes E h.sizes hfit
    pos := h.pos
    cur := h.cur
    len := by rw [refillBlock_len, hlen, hcfg, Nat.succ_mul, Nat.add_assoc]
    ctr := by rw [refillBlock_ctr, h.ctr, beinc_counterBlock]
    moved := fun i hi => by
      rw [hnew, if_neg (by omega)]
      exact h.moved i hi
    blocks := fun j b hj hb => by
      rw [hnew]
      obtain hold | rfl : j < k ∨ j = k := by omega
      · have hbefore : (j + 1) * s.cfg.blockBytes ≤ k * s.cfg.blockBytes := Nat.mul_le_mul_right _ hold
        rw [Nat.succ_mul] at hbefore
        rw [if_neg (by omega)]
        exact h.blocks j b hold hb
      · rw [if_pos (by omega), hlen, Nat.add_sub_cancel_left, encryptBlock_getElem?_of_lt E _ _ _ hb]
    above := fun a ha => by
      rw [refillBlock_len, hcfg] at ha
      rw [hnew, if_neg (by omega)]
      exact h.above a (by omega)
    trace := by
      rw [refillBlock_trace, h.trace, h.ctr, List.range_succ, List.map_append, List.append_assoc]
      rfl }

/-- R115, R116: REFILL adds as many whole blocks as fit. -/
theorem refill_refilled (E : Cipher) {s : State} (h : SizesOk s) :
    Refilled E s ((capacity s.cfg - s.avail) / s.cfg.blockBytes) (refill E s) := by
  obtain ⟨k, hk⟩ : ∃ k, Refilled E s k (refill E s) :=
    refillLoop_induct (P := fun t => ∃ k, Refilled E s k t) (fun _ ⟨k, hk⟩ hfit => ⟨k + 1, hk.block hfit⟩) _ _
      ⟨0, refillShift_refilled E h⟩
  have hle := hk.sizes.len_le_capacity
  have hfull := refill_full E s
  rw [hk.lookahead.cfg] at hle
  rw [hk.len] at hle hfull
  have hcount : (capacity s.cfg - s.avail) / s.cfg.blockBytes = k :=
    Nat.div_eq_of_lt_le (by omega) (by rw [Nat.succ_mul]; omega)
  rwa [hcount]

/-- R115: REFILL keeps the content invariants of 43_laws and restores the fill level of R172. -/
theorem refill_stream {E : Cipher} {s : State} (h : SizesOk s) (hs : StreamOk E s) : StreamOk E (refill E s) := by
  obtain ⟨hco, -⟩ := refill_coherent ⟨h, hs.key_accepted, hs.aligned, hs.counter, hs.content⟩
  have hfull := refill_full E s
  have hcap := blockBytes_le_capacity s.cfg
  refine ⟨hco.key_accepted, hco.aligned, hco.counter, hco.content, .inr ?_⟩
  rw [(refill_lookahead E s).cfg]
  omega

/-- Settles O31, from what REFILL has done after each of its turns. -/
theorem refillLeavesWholeBlocks : Obligations.RefillLeavesWholeBlocks := by
  intro E s hsizes B C r k counterAt t
  have h : Refilled E s k t := refill_refilled E hsizes
  have hfull : C < t.len + B := refill_full E s
  have hcap : B ≤ C := blockBytes_le_capacity s.cfg
  have hle : t.len ≤ capacity t.cfg := h.sizes.len_le_capacity
  rw [h.lookahead.cfg] at hle
  exact ⟨h.cur, h.len, by omega, hle, fun hr => Nat.div_pos (by omega) s.cfg.blockBytes_pos, h.ctr, h.moved, h.blocks,
    h.above, h.trace, h.pos, h.lookahead.sameHost, h.lookahead.sameIdentity, h.lookahead.resPort, h.sizes,
    refill_stream hsizes⟩

end Sys2Proof.Machine
end

section
/-! PROOFS. Progress (40_primitives R118): the count of an XORSTEP, and the loop of APPLY that drains its input. -/

namespace Sys2Proof.Machine

/-- R118: an XORSTEP that answers on non-empty data combines at least one byte, and no more than there are. -/
theorem xorStep_progress {E : Cipher} {src out : List Byte} {s t : State} (hne : src ≠ [])
    (h : xorStep E src.length src s = .ok (out, t)) : 1 ≤ out.length ∧ out.length ≤ src.length := by
  have hsrc : 0 < src.length := List.length_pos_iff.2 hne
  have havail := refillIfLow_avail_pos E s
  obtain ⟨hempty, -, -⟩ | ⟨-, hlen, -, -⟩ := xorStep_ok h
  · omega
  · rw [State.avail] at havail
    omega

/-- Turns beyond one for each byte change nothing: the loop has ended by then (R118, log 13). -/
theorem applyLoop_eq_of_le {E : Cipher} : ∀ (m n : Nat) (src : List Byte) (s : State), src.length ≤ m → src.length ≤ n →
    applyLoop E m src s = applyLoop E n src s
  | 0, 0, [], _, _, _ => rfl
  | 0, _ + 1, [], _, _, _ => rfl
  | _ + 1, 0, [], _, _, _ => rfl
  | _ + 1, _ + 1, [], _, _, _ => rfl
  | m + 1, n + 1, b :: bs, s, hm, hn => by
    unfold applyLoop
    cases hx : xorStep E (b :: bs).length (b :: bs) s with
    | error f => rfl
    | ok p =>
      obtain ⟨out, t⟩ := p
      obtain ⟨hpos, -⟩ := xorStep_progress (List.cons_ne_nil b bs) hx
      have hrest : ((b :: bs).drop out.length).length ≤ bs.length := by
        rw [List.length_drop, List.length_cons]; omega
      rw [List.length_cons] at hm hn
      simp only [applyLoop_eq_of_le m n _ t (hrest.trans (Nat.le_of_succ_le_succ hm))
        (hrest.trans (Nat.le_of_succ_le_succ hn))]

/-- With a turn for each byte, a loop that answers has combined all the bytes (R118). -/
theorem applyLoop_drains {E : Cipher} : ∀ (steps : Nat) (src dst : List Byte) (s t : State), src.length ≤ steps →
    applyLoop E steps src s = .ok (dst, t) → dst.length = src.length ∧ t.pos = s.pos + src.length
  | 0, [], _, _, _, _, h => by cases h; exact ⟨rfl, rfl⟩
  | _ + 1, [], _, _, _, _, h => by cases h; exact ⟨rfl, rfl⟩
  | steps + 1, b :: bs, dst, s, t, hl, h => by
    unfold applyLoop at h
    split at h
    · cases h
    · rename_i out u hx
      split at h
      · cases h
      · rename_i rest v hrest
        cases h
        obtain ⟨hpos, hle⟩ := xorStep_progress (List.cons_ne_nil b bs) hx
        obtain ⟨hlen, hend⟩ := applyLoop_drains steps _ _ _ _ (by rw [List.length_drop]; omega) hrest
        rw [List.length_drop] at hlen hend
        rw [List.length_append, hlen, hend, xorStep_pos hx]
        omega

/-- Settles O32: the count from everything an XORSTEP can do, the loop by induction on its turns. -/
theorem xorstepCountAndProgress : Obligations.XorstepCountAndProgress := by
  refine ⟨refillIfLow_avail_pos, fun E dstLen src out s t h => ?_,
    fun E src s turns hl => applyLoop_eq_of_le _ _ _ _ hl le_rfl,
    fun E src dst s t h => applyLoop_drains _ _ _ _ _ le_rfl h⟩
  have havail := refillIfLow_avail_pos E s
  obtain ⟨hempty, hout, ht⟩ | ⟨hne, hlen, -, rfl⟩ := xorStep_ok h
  · exact ⟨fun _ => ⟨hout, ht⟩, fun hne => absurd hempty hne⟩
  · rw [← State.avail] at hlen
    exact ⟨fun hempty => absurd hempty hne, fun _ => ⟨hlen, by omega, rfl⟩⟩

end Sys2Proof.Machine
end

section
/-! PROOFS. APPLY (41_generator_commands R133 to R135): its answer is APPLY_core's, with the response added. -/

namespace Sys2Proof.Machine

/-- R133: where APPLY_core answers, a constructed APPLY answers its bytes from the state it leaves. -/
theorem runApply_of_core {E : Cipher} {data dst : List Byte} {s u : State} (hc : s.constructed = true)
    (hcore : applyCore E data s = .ok (dst, u)) :
    runApply E data s = .next (u.respond .ok 0 (countField data.length) dst) := by
  simp [runApply, hc, hcore]

@[simp] theorem applyCore_nil (E : Cipher) (s : State) : applyCore E [] s = .ok ([], s) := rfl

/-- A response is seen in the trace only, of which the invariant does not speak. -/
theorem Inv.respond {E : Cipher} {s : State} (h : Inv E s) (status : Status) (rstat : BitVec 32) (value : BitVec 64)
    (payload : List Byte) : Inv E (s.respond status rstat value payload) where
  sizes := ⟨h.sizes.canonical, h.sizes.inside, h.sizes.iv_length, h.sizes.ctr_length, h.sizes.cur_le_len,
    h.sizes.len_le_capacity⟩
  unconstructed_empty := h.unconstructed_empty
  stream hc :=
    have hs := h.stream hc
    ⟨hs.key_accepted, hs.aligned, hs.counter, hs.content, hs.filled⟩

/-- Settles O33: the bytes, the position and the invariant from the loop's own law (R174), the frame from what APPLY_core
can touch. -/
theorem applyOutputsStream : Obligations.ApplyOutputsStream := by
  intro s data hinv hc
  obtain ⟨u, hcore, hpos, hu, -⟩ := applyCore_of_inv hinv hc data
  have hstep := applyCore_lookahead hcore
  have houtside := applyCore_outside hcore
  obtain ⟨blocks, htrace⟩ := hstep.trace
  exact ⟨_, blocks, runApply_of_core hc hcore, by rw [respond_trace, htrace], hpos, hstep.sameHost, hstep.sameIdentity,
    hstep.resPort, houtside, hu.respond ..⟩

/-- Settles O34: with no bytes the loop makes no turn, so only the response is added. -/
theorem applyEmptyDoesNothing : Obligations.ApplyEmptyDoesNothing :=
  fun s hc => runApply_of_core hc (applyCore_nil Config.encryptByte s)

end Sys2Proof.Machine
end

section
/-! PROOFS. SEEK where it repositions nothing (42_adapter_commands R157, R158): the resource cannot seek, refuses, or resolves to
a negative position. -/

namespace Sys2Proof.Machine

theorem negativeOffset_eq_true {a : BitVec 64} : negativeOffset a = true ↔ a.toInt < 0 := decide_eq_true_iff

/-- A response sent right after an answered resource request is seen right after it (R55). -/
theorem respond_of_answered (s : State) (rest : List ResAnswer) (request : PortEvent) (status : Status)
    (rstat : BitVec 32) (value : BitVec 64) (payload : List Byte) :
    State.respond { s with resPort := rest, trace := s.trace ++ [request] } status rstat value payload =
      { s with resPort := rest, trace := s.trace ++ [request, .response ⟨status, rstat, value, payload⟩] } := by
  simp [State.respond, State.emit]

section
variable (E : Cipher) (offset : BitVec 64) (whence : Whence) {s : State}

/-- R157: the capability is asked before the resource is. -/
theorem runSeek_of_cannotSeek (hc : s.constructed = true) (hs : s.cfg.resCanSeek = false) :
    runSeek E offset whence s = .next s.unsupported := by
  simp [runSeek, hc, hs]

variable {a : BitVec 64} {rstat : BitVec 32} {rest : List ResAnswer}

/-- R158 (a): an error of the resource is handed on before the position is looked at. -/
theorem runSeek_of_resourceError (hc : s.constructed = true) (hs : s.cfg.resCanSeek = true)
    (hp : s.resPort = .seek a rstat :: rest) (hr : rstat ≠ 0) :
    runSeek E offset whence s = .next (State.respond
      { s with resPort := rest, trace := s.trace ++ [.resSeek offset whence] } .resource rstat a []) := by
  have hr' : rstat ≠ 0#32 := hr
  simp [runSeek, hc, hs, resSeek_of_answer hp, hr']

/-- R158 (b): a negative position faults, with the resource's answer already taken. -/
theorem runSeek_of_negativePosition (hc : s.constructed = true) (hs : s.cfg.resCanSeek = true)
    (hp : s.resPort = .seek a 0 :: rest) (hn : negativeOffset a = true) :
    runSeek E offset whence s = .next (State.raise
      { s with resPort := rest, trace := s.trace ++ [.resSeek offset whence] } .errNegOffset) := by
  simp [runSeek, hc, hs, resSeek_of_answer hp, hn]

end

/-- Settles O43: SEEK stops at the capability, whatever the whence. -/
theorem seekUnsupportedDoesNothing : Obligations.SeekUnsupportedDoesNothing := by
  intro s whence offset hc hs
  rw [exec_seekInstr]
  exact runSeek_of_cannotSeek _ offset whence hc hs

/-- Settles O44: by the resource's status, then the sign of its position; both stop before the generator is repositioned. -/
theorem seekFailuresLeaveGenerator : Obligations.SeekFailuresLeaveGenerator := by
  intro s whence offset a rstat rest hc hs hp
  rw [exec_seekInstr]
  constructor
  · intro hr
    rw [runSeek_of_resourceError _ offset whence hc hs hp hr, respond_of_answered]
  · rintro rfl hn
    rw [runSeek_of_negativePosition _ offset whence hc hs hp (negativeOffset_eq_true.2 hn), State.raise, respond_of_answered]

end Sys2Proof.Machine
end

section
/-! PROOFS. Repositioning a constructed generator that meets the invariant (41 R136; 43_laws R170 to R172): SEEKTO_core is a
REFILL from the block that holds the offset, with the bytes before the offset consumed. -/

namespace Sys2Proof.Machine

/-! ### What the invariant speaks of -/

/-- The invariant speaks of the static parameters and the generator only. -/
theorem Inv.of_sameGenerator {E : Cipher} {s t : State} (h : Inv E s) (hcfg : t.cfg = s.cfg) (hg : SameGenerator s t) :
    Inv E t := by
  obtain ⟨⟨hcons, hkey, hiv⟩, hctr, hbuf, hlen, hcur, hpos⟩ := hg
  cases s
  cases t
  dsimp only at hcfg hcons hkey hiv hctr hbuf hlen hcur hpos
  subst hcfg hcons hkey hiv hctr hbuf hlen hcur hpos
  refine ⟨⟨h.sizes.canonical, h.sizes.inside, h.sizes.iv_length, h.sizes.ctr_length, h.sizes.cur_le_len,
    h.sizes.len_le_capacity⟩, h.unconstructed_empty, fun hc => ?_⟩
  have hs := h.stream hc
  exact ⟨hs.key_accepted, hs.aligned, hs.counter, hs.content, hs.filled⟩

/-- The state after an answered resource request: the request is seen and the answer taken (R55). -/
def State.asked (s : State) (request : PortEvent) (rest : List ResAnswer) : State :=
  { s with resPort := rest, trace := s.trace ++ [request] }

theorem Inv.asked {E : Cipher} {s : State} (h : Inv E s) (request : PortEvent) (rest : List ResAnswer) :
    Inv E (s.asked request rest) :=
  h.of_sameGenerator rfl ⟨⟨rfl, rfl, rfl⟩, rfl, rfl, rfl, rfl, rfl⟩

/-! ### Nothing in REFILL reads the ghost (10_state R29) -/

theorem refillLoop_withPos (E : Cipher) (p : Nat) : ∀ (turns : Nat) (s : State),
    refillLoop E turns { s with pos := p } = { refillLoop E turns s with pos := p }
  | 0, _ => rfl
  | turns + 1, s => by
    unfold refillLoop
    split
    · exact refillLoop_withPos E p turns (refillBlock E s)
    · rfl

theorem refill_withPos (E : Cipher) (p : Nat) (s : State) :
    refill E { s with pos := p } = { refill E s with pos := p } :=
  refillLoop_withPos E p (capacity s.cfg) (refillShift s)

/-! ### SEEKTO_core -/

/-- The generator about to regenerate its buffer from block `j` on: the counter of that block, no byte buffered. -/
def State.atBlock (s : State) (j : Nat) : State :=
  { s with ctr := beadd s.iv j, len := 0, cur := 0, pos := j * s.cfg.blockBytes }

theorem atBlock_coherent {E : Cipher} {s : State} (h : SizesOk s) (hk : keyAccepted s.cfg s.key = true) (j : Nat) :
    Coherent E (s.atBlock j) where
  sizes := ⟨h.canonical, h.inside, h.iv_length, (length_beadd _ _).trans h.iv_length, Nat.le_refl _, Nat.zero_le _⟩
  key_accepted := hk
  aligned := Nat.mul_mod_left ..
  counter := by
    have hnext : (s.atBlock j).nextBlock = j := Nat.mul_div_cancel _ s.cfg.blockBytes_pos
    have hadd := be_beadd s.iv j
    rw [h.iv_length, ← counterValues_eq] at hadd
    rw [hnext]
    exact hadd
  content i hi := absurd hi (Nat.not_lt_zero i)

/-- R136: the offset's own block is the first one refilled, and the bytes of it before the offset count as consumed. -/
theorem seekCore_eq (E : Cipher) (o : Nat) (s : State) :
    seekCore E o s = (refill E (s.atBlock (chunkIndex s.cfg o))).consume (intraBlock s.cfg o) := by
  have hrefill := refill_withPos E (chunkIndex s.cfg o * s.cfg.blockBytes)
    { s with ctr := beadd s.iv (chunkIndex s.cfg o), len := 0, cur := 0 }
  have hcur := refill_cur E { s with ctr := beadd s.iv (chunkIndex s.cfg o), len := 0, cur := 0 }
  have hpos : chunkIndex s.cfg o * s.cfg.blockBytes + intraBlock s.cfg o = o := Nat.div_add_mod' ..
  rw [State.atBlock, hrefill]
  simp only [seekCore, State.consume, hcur, hpos, Nat.zero_add]

/-- The refill of an empty buffer leaves at least one block (R115). -/
theorem refill_atBlock_avail (E : Cipher) {s : State} {j : Nat} (h : SizesOk (s.atBlock j)) :
    s.cfg.blockBytes ≤ (refill E (s.atBlock j)).avail := by
  have hlen : (refill E (s.atBlock j)).len = 0 + capacity s.cfg / s.cfg.blockBytes * s.cfg.blockBytes :=
    (refill_refilled E h).len
  have hone : 1 ≤ capacity s.cfg / s.cfg.blockBytes :=
    Nat.div_pos (blockBytes_le_capacity s.cfg) s.cfg.blockBytes_pos
  have hblock := Nat.mul_le_mul_right s.cfg.blockBytes hone
  rw [State.avail, refill_cur]
  omega

/-- R173: a repositioned generator meets the invariant, wherever it stood before. -/
theorem seekCore_inv {E : Cipher} {s : State} (h : Inv E s) (hc : s.constructed = true) (o : Nat) :
    Inv E (seekCore E o s) := by
  have hat := atBlock_coherent (E := E) h.sizes (h.stream hc).key_accepted (chunkIndex s.cfg o)
  obtain ⟨hco, hord⟩ := refill_coherent hat
  have hc' := hord.lookahead.constructed.trans hc
  have hfull := refill_full E (s.atBlock (chunkIndex s.cfg o))
  have hcap := blockBytes_le_capacity (s.atBlock (chunkIndex s.cfg o)).cfg
  have hfilled := hco.inv hc' (.inr (by rw [hord.lookahead.cfg]; omega))
  have hmod : intraBlock s.cfg o < s.cfg.blockBytes := Nat.mod_lt _ s.cfg.blockBytes_pos
  rw [seekCore_eq]
  exact consume_inv hfilled hc' (hmod.le.trans (refill_atBlock_avail E hat.sizes))

end Sys2Proof.Machine
end

section
/-! PROOFS. Stream equivalences (43_laws R173, R175, R176): what the next APPLY answers is a function of the block size, the
key, the IV, the position and the data, so it does not matter by which commands the position was reached. -/

namespace Sys2Proof.Machine

/-! ### The stream as a function of block size, key, IV and position -/

theorem counterBlock_congr {cfg cfg' : Params} (h : cfg'.blockBytes = cfg.blockBytes) (iv : List Byte) (j : Nat) :
    counterBlock cfg' iv j = counterBlock cfg iv j := by
  simp only [counterBlock, counterValues, counterBits, h]

/-- R44: of the static parameters the keystream reads the block size only. -/
theorem streamXor_congr {s t : State} (hb : t.cfg.blockBytes = s.cfg.blockBytes) (hk : t.key = s.key) (hv : t.iv = s.iv)
    (E : Cipher) (n : Nat) (data : List Byte) : t.streamXor E n data = s.streamXor E n data := by
  have hks (m : Nat) : t.ks E m = s.ks E m := by
    simp only [State.ks, keystream, hb, hk, hv, counterBlock_congr hb]
  simp only [State.streamXor, hks]

/-- R175: combining twice with the same keystream bytes gives the data back. -/
theorem streamXor_streamXor (E : Cipher) (s : State) (n : Nat) (data : List Byte) :
    s.streamXor E n (s.streamXor E n data) = data := by
  refine List.ext_getElem (by simp) fun i _ _ => ?_
  simp [State.streamXor]

/-- R176: what is combined from the `o`-th byte on is combined with the keystream from `o` bytes further on. -/
theorem drop_streamXor (E : Cipher) (s : State) (n : Nat) {o : Nat} {data : List Byte} (ho : o ≤ data.length) :
    (s.streamXor E n data).drop o = s.streamXor E (n + o) (data.drop o) := by
  have hlen : (data.take o).length = o := List.length_take_of_le ho
  have hsplit := streamXor_append E s n (data.take o) (data.drop o)
  rw [List.take_append_drop, hlen] at hsplit
  rw [hsplit, List.drop_left' (by rw [length_streamXor, hlen])]

/-! ### Sequences and their last response -/

theorem execAll_cons_of_next {i : Instr} {is : List Instr} {s t : State} (h : exec i s = .next t) :
    execAll (i :: is) s = execAll is t := by
  simp only [execAll, h]

theorem execAll_last_of_next {i : Instr} {s t : State} (h : exec i s = .next t) : execAll [i] s = .next t :=
  execAll_cons_of_next h

/-- A command's output is the payload of the response it ends with. -/
theorem lastOutput_of_trace {s : State} {earlier : List PortEvent} {r : Response}
    (h : s.trace = earlier ++ [.response r]) : lastOutput s = r.payload := by
  simp [lastOutput, lastResponse, responses, h, PortEvent.response?]

/-! ### The commands from states that meet the invariant -/

/-- R135, R174: what APPLY leaves behind for the commands after it. -/
theorem exec_apply_of_inv {s : State} (h : Inv Config.encryptByte s) (hc : s.constructed = true) (data : List Byte) :
    ∃ t, exec (.apply data) s = .next t ∧ lastOutput t = s.streamXor Config.encryptByte s.pos data ∧
      t.pos = s.pos + data.length ∧ t.cfg = s.cfg ∧ SameIdentity s t ∧ Inv Config.encryptByte t := by
  obtain ⟨t, blocks, hexec, htrace, hpos, ⟨hcfg, -⟩, hid, -, -, hinv⟩ := applyOutputsStream s data h hc
  exact ⟨t, hexec, lastOutput_of_trace htrace, hpos, hcfg, hid, hinv⟩

/-- R39, R130: a just constructed generator meets the invariant: no byte buffered, the counter at block 0. -/
theorem Inv.initialised {E : Cipher} {s : State} (h : Inv E s) {key iv : List Byte} (hk : key.length ∈ s.cfg.keyLens)
    (hv : iv.length = s.cfg.blockBytes) (trace : List PortEvent) :
    Inv E { s with key := key, iv := iv, ctr := iv, len := 0, cur := 0, constructed := true, pos := 0, trace := trace } where
  sizes := ⟨h.sizes.canonical, h.sizes.inside, hv, hv, Nat.le_refl _, Nat.zero_le _⟩
  unconstructed_empty := nofun
  stream _ :=
    { key_accepted := decide_eq_true hk
      aligned := Nat.zero_mod _
      counter := by
        have hnext : (0 + (0 - 0)) / s.cfg.blockBytes = 0 := Nat.zero_div _
        have hlt := be_lt iv
        rw [hv, ← counterValues_eq] at hlt
        simp only [State.nextBlock, State.avail, hnext, Nat.add_zero]
        exact (Nat.mod_eq_of_lt hlt).symm
      content := fun i hi => absurd hi (Nat.not_lt_zero i)
      filled := .inl rfl }

/-- R39: what an accepted INIT leaves behind for the commands after it. -/
theorem exec_init_of_inv {E : Cipher} {s : State} (h : Inv E s) (hc : s.constructed = false) {key iv : List Byte}
    (hk : key.length ∈ s.cfg.keyLens) (hv : iv.length = s.cfg.blockBytes) :
    ∃ t, exec (.init key iv) s = .next t ∧ Inv E t ∧ t.constructed = true ∧ t.cfg = s.cfg ∧ t.key = key ∧ t.iv = iv ∧
      t.pos = 0 := by
  obtain ⟨hc', -⟩ | ⟨-, hk', -⟩ | ⟨-, -, hv', -⟩ | ⟨-, -, -, hrun⟩ := runInit_cases key iv s
  · simp [hc] at hc'
  · exact absurd hk hk'
  · exact absurd hv hv'
  · exact ⟨_, congrArg Host.Outcome.next hrun, h.initialised hk hv _, rfl, rfl, rfl, rfl, rfl⟩

/-- R136: a constructed SEEKTO with a legal offset repositions the generator and answers. -/
theorem runSeekto_of_legal (E : Cipher) {offset : BitVec 64} {s : State} (hc : s.constructed = true)
    (hn : negativeOffset offset = false) :
    runSeekto E offset s = (seekCore E (streamOffset offset) s).respond .ok 0 offset [] := by
  simp [runSeekto, hc, hn]

/-- R156: so does a SEEK the resource resolves to a legal position, with the resource's answer taken before. -/
theorem runSeek_of_legal (E : Cipher) (offset : BitVec 64) (whence : Whence) {a : BitVec 64} {rest : List ResAnswer}
    {s : State} (hc : s.constructed = true) (hs : s.cfg.resCanSeek = true) (hp : s.resPort = .seek a 0 :: rest)
    (hn : negativeOffset a = false) : runSeek E offset whence s =
      .next ((seekCore E (streamOffset a) (s.asked (.resSeek offset whence) rest)).respond .ok 0 a []) := by
  simp [runSeek, hc, hs, resSeek_of_answer hp, hn, State.asked]

/-- R173: whichever command repositions the generator, it does so by SEEKTO_core, from a state that differs at most in the
ports. -/
theorem exec_of_seeksTo {i : Instr} {s : State} {o : Nat} (hc : s.constructed = true) (h : SeeksTo s o i) :
    ∃ s₁ value, s₁.cfg = s.cfg ∧ SameGenerator s s₁ ∧
      exec i s = .next ((seekCore Config.encryptByte o s₁).respond .ok 0 value []) := by
  have hsame : SameGenerator s s := ⟨⟨rfl, rfl, rfl⟩, rfl, rfl, rfl, rfl, rfl⟩
  obtain ⟨offset, rfl, hn, rfl⟩ | ⟨whence, offset, a, rest, rfl, hs, hp, hn, rfl⟩ := h
  · exact ⟨s, offset, rfl, hsame, congrArg Host.Outcome.next (runSeekto_of_legal _ hc hn)⟩
  · rw [exec_seekInstr]
    exact ⟨s.asked (.resSeek offset whence) rest, a, rfl, hsame, runSeek_of_legal _ offset whence hc hs hp hn⟩

/-- R173: what a seek leaves behind for the commands after it. -/
theorem exec_seek_of_inv {i : Instr} {s : State} {o : Nat} (h : Inv Config.encryptByte s) (hc : s.constructed = true)
    (hseek : SeeksTo s o i) :
    ∃ t, exec i s = .next t ∧ t.pos = o ∧ Inv Config.encryptByte t ∧ t.cfg = s.cfg ∧ SameIdentity s t := by
  obtain ⟨s₁, value, hcfg, hgen, hexec⟩ := exec_of_seeksTo hc hseek
  obtain ⟨hcons, hkey, hiv⟩ := hgen.1
  have hstep := seekCore_lookahead Config.encryptByte o s₁
  have hinv := seekCore_inv (h.of_sameGenerator hcfg hgen) (hcons.trans hc) o
  exact ⟨_, hexec, rfl, hinv.respond .., hstep.cfg.trans hcfg, hstep.constructed.trans hcons, hstep.key.trans hkey,
    hstep.iv.trans hiv⟩

/-! ### The laws -/

/-- Settles O50: both instances stand at position `o` of one stream when the last APPLY comes. -/
theorem seekExactness : Obligations.SeekExactness := by
  intro i s o src hinv hc hseek
  obtain ⟨t, hexec, hpos, htinv, htcfg, htc, htkey, htiv⟩ := exec_seek_of_inv hinv hc hseek
  obtain ⟨u, huexec, huout, -⟩ := exec_apply_of_inv htinv (htc.trans hc) src
  have hout : lastOutput u = s.streamXor Config.encryptByte o src := by
    rw [huout, hpos, streamXor_congr (congrArg _ htcfg) htkey htiv]
  refine ⟨t, u, hexec, hpos, htinv, huexec, hout, fun f before hf hfcfg ⟨hfc, hfkey, hfiv⟩ hfpos hlen => ?_⟩
  obtain ⟨f₁, hf₁exec, -, hf₁pos, hf₁cfg, ⟨hf₁c, hf₁key, hf₁iv⟩, hf₁⟩ := exec_apply_of_inv hf (hfc.trans hc) before
  obtain ⟨g, hgexec, hgout, -⟩ := exec_apply_of_inv hf₁ ((hf₁c.trans hfc).trans hc) src
  refine ⟨g, (execAll_cons_of_next hf₁exec).trans (execAll_last_of_next hgexec), ?_⟩
  rw [hgout, hout, hf₁pos, hfpos, hlen, Nat.zero_add,
    streamXor_congr (congrArg _ (hf₁cfg.trans hfcfg)) (hf₁key.trans hfkey) (hf₁iv.trans hfiv)]

/-- Settles O51: both APPLYs start at position 0 of one stream, and the keystream cancels. -/
theorem roundTrip : Obligations.RoundTrip := by
  intro a b key iv plain ha hb hac hbc hblock hka hkb hv
  obtain ⟨a₁, haexec, ha₁, ha₁c, ha₁cfg, ha₁key, ha₁iv, ha₁pos⟩ := exec_init_of_inv ha hac hka hv
  obtain ⟨b₁, hbexec, hb₁, hb₁c, hb₁cfg, hb₁key, hb₁iv, hb₁pos⟩ := exec_init_of_inv hb hbc hkb (hv.trans hblock.symm)
  obtain ⟨a', ha'exec, ha'out, -⟩ := exec_apply_of_inv ha₁ ha₁c plain
  obtain ⟨b', hb'exec, hb'out, -⟩ := exec_apply_of_inv hb₁ hb₁c (lastOutput a')
  refine ⟨a', b', (execAll_cons_of_next haexec).trans (execAll_last_of_next ha'exec),
    (execAll_cons_of_next hbexec).trans (execAll_last_of_next hb'exec), ?_⟩
  have hblocks : b₁.cfg.blockBytes = a₁.cfg.blockBytes := by rw [hb₁cfg, ha₁cfg, hblock]
  rw [hb'out, ha'out, ha₁pos, hb₁pos, streamXor_congr hblocks (hb₁key.trans ha₁key.symm) (hb₁iv.trans ha₁iv.symm),
    streamXor_streamXor]

/-- Settles O52: the seek takes the second stream to where the first is after `o` bytes. -/
theorem seekConsistency : Obligations.SeekConsistency := by
  intro a b key iv cipherText offset ha hb hac hbc hblock hka hkb hv hnonneg hlt
  obtain ⟨a₁, haexec, ha₁, ha₁c, ha₁cfg, ha₁key, ha₁iv, ha₁pos⟩ := exec_init_of_inv ha hac hka hv
  obtain ⟨b₁, hbexec, hb₁, hb₁c, hb₁cfg, hb₁key, hb₁iv, -⟩ := exec_init_of_inv hb hbc hkb (hv.trans hblock.symm)
  have hseek : SeeksTo b₁ offset.toInt.toNat (.seekto offset) :=
    .inl ⟨offset, rfl, decide_eq_false (not_lt.2 hnonneg), rfl⟩
  obtain ⟨b₂, hb₂exec, hb₂pos, hb₂, hb₂cfg, hb₂c, hb₂key, hb₂iv⟩ := exec_seek_of_inv hb₁ hb₁c hseek
  obtain ⟨a', ha'exec, ha'out, -⟩ := exec_apply_of_inv ha₁ ha₁c cipherText
  obtain ⟨b', hb'exec, hb'out, -⟩ := exec_apply_of_inv hb₂ (hb₂c.trans hb₁c) (cipherText.drop offset.toInt.toNat)
  refine ⟨a', b', (execAll_cons_of_next haexec).trans (execAll_last_of_next ha'exec),
    (execAll_cons_of_next hbexec).trans ((execAll_cons_of_next hb₂exec).trans (execAll_last_of_next hb'exec)), ?_⟩
  have hblocks : b₂.cfg.blockBytes = a₁.cfg.blockBytes := by rw [hb₂cfg, hb₁cfg, ha₁cfg, hblock]
  rw [hb'out, ha'out, ha₁pos, hb₂pos, drop_streamXor _ _ _ hlt.le, Nat.zero_add,
    streamXor_congr hblocks ((hb₂key.trans hb₁key).trans ha₁key.symm) ((hb₂iv.trans hb₁iv).trans ha₁iv.symm)]

end Sys2Proof.Machine
end

section
/-! PROOFS. Buffer-size independence (43_laws R179): a simulation. `SameStream` relates two instances that differ only in their
lookahead; every operation takes related states to related states, so every step and every run does. -/

namespace Sys2Proof.Machine

/-! ### Traces without their encrypt requests -/

@[simp] theorem withoutEncrypts_append (xs ys : List PortEvent) :
    withoutEncrypts (xs ++ ys) = withoutEncrypts xs ++ withoutEncrypts ys := List.filter_append ..

@[simp] theorem withoutEncrypts_encrypts (blocks : List (List Byte)) :
    withoutEncrypts (blocks.map PortEvent.cipherEncrypt) = [] := by
  simp [withoutEncrypts, PortEvent.encrypt?]

theorem LookaheadStep.withoutEncrypts_eq {s t : State} (h : LookaheadStep s t) :
    withoutEncrypts t.trace = withoutEncrypts s.trace := by
  obtain ⟨blocks, htrace⟩ := h.trace
  simp [htrace]

/-! ### What both instances do alike -/

/-- The same event seen and the same answers left, on both. -/
theorem SameStream.asked {E : Cipher} {s t : State} (h : SameStream E s t) (request : PortEvent)
    (rest : List ResAnswer) : SameStream E (s.asked request rest) (t.asked request rest) :=
  { h with
    left_inv := h.left_inv.asked request rest
    right_inv := h.right_inv.asked request rest
    resPort := rfl
    observed := by simp [State.asked, h.observed] }

theorem SameStream.respond {E : Cipher} {s t : State} (h : SameStream E s t) (status : Status) (rstat : BitVec 32)
    (value : BitVec 64) (payload : List Byte) :
    SameStream E (s.respond status rstat value payload) (t.respond status rstat value payload) := by
  have hseen := h.asked (.response ⟨status, rstat, value, payload⟩) s.resPort
  rw (occs := [2]) [← h.resPort] at hseen
  exact hseen

theorem SameStream.withPort {E : Cipher} {s t : State} (h : SameStream E s t) (rest : List Byte) :
    SameStream E (s.withPort rest) (t.withPort rest) :=
  { h with
    left_inv := h.left_inv.of_sameGenerator rfl ⟨⟨rfl, rfl, rfl⟩, rfl, rfl, rfl, rfl, rfl⟩
    right_inv := h.right_inv.of_sameGenerator rfl ⟨⟨rfl, rfl, rfl⟩, rfl, rfl, rfl, rfl, rfl⟩
    cmdPort := rfl }

/-- Lookahead steps that keep the invariant and end at one position keep the relation, whatever blocks each fetched. -/
theorem SameStream.lookahead {E : Cipher} {s t s' t' : State} (h : SameStream E s t) (hs : LookaheadStep s s')
    (ht : LookaheadStep t t') (hs' : Inv E s') (ht' : Inv E t') (hpos : t'.pos = s'.pos) : SameStream E s' t' where
  left_inv := hs'
  right_inv := ht'
  blockBytes := by rw [hs.cfg, ht.cfg, h.blockBytes]
  keyLens := by rw [hs.cfg, ht.cfg, h.keyLens]
  canSeek := by rw [hs.cfg, ht.cfg, h.canSeek]
  canClose := by rw [hs.cfg, ht.cfg, h.canClose]
  identity := by
    obtain ⟨hcons, hkey, hiv⟩ := h.identity
    exact ⟨by rw [hs.constructed, ht.constructed, hcons], by rw [hs.key, ht.key, hkey], by rw [hs.iv, ht.iv, hiv]⟩
  pos := hpos
  cmdPort := by rw [hs.cmdPort, ht.cmdPort, h.cmdPort]
  resPort := by rw [hs.resPort, ht.resPort, h.resPort]
  resetLine := by rw [hs.resetLine, ht.resetLine, h.resetLine]
  resets := by rw [hs.resets, ht.resets, h.resets]
  observed := by rw [hs.withoutEncrypts_eq, ht.withoutEncrypts_eq, h.observed]

/-- R174: APPLY_core answers the same bytes on both. -/
theorem SameStream.applyCore {E : Cipher} {s t : State} (h : SameStream E s t) (hc : s.constructed = true)
    (data : List Byte) : ∃ out u v, applyCore E data s = .ok (out, u) ∧ applyCore E data t = .ok (out, v) ∧
      SameStream E u v := by
  obtain ⟨hcons, hkey, hiv⟩ := h.identity
  obtain ⟨u, hu, hupos, hui, huord⟩ := applyCore_of_inv h.left_inv hc data
  obtain ⟨v, hv, hvpos, hvi, hvord⟩ := applyCore_of_inv h.right_inv (hcons.trans hc) data
  rw [h.pos, streamXor_congr h.blockBytes hkey hiv] at hv
  exact ⟨_, u, v, hu, hv, h.lookahead huord.lookahead hvord.lookahead hui hvi (by rw [hupos, hvpos, h.pos])⟩

theorem SameStream.seekCore {E : Cipher} {s t : State} (h : SameStream E s t) (hc : s.constructed = true) (o : Nat) :
    SameStream E (seekCore E o s) (seekCore E o t) :=
  h.lookahead (seekCore_lookahead E o s) (seekCore_lookahead E o t) (seekCore_inv h.left_inv hc o)
    (seekCore_inv h.right_inv (h.identity.1.trans hc) o) rfl

theorem takeReset_inv {E : Cipher} {s : State} : Inv E (takeReset s) where
  sizes := ⟨rfl, fun _ _ => rfl, by simp [takeReset, freeBlock], by simp [takeReset, freeBlock], Nat.le_refl _,
    Nat.zero_le _⟩
  unconstructed_empty _ := ⟨rfl, rfl⟩
  stream := nofun

/-- R230: the free values of a reset depend on the reset count and the block size only. -/
theorem SameStream.takeReset {E : Cipher} {s t : State} (h : SameStream E s t) :
    SameStream E (takeReset s) (takeReset t) :=
  { h with
    left_inv := takeReset_inv
    right_inv := takeReset_inv
    identity := ⟨rfl, by simp [Machine.takeReset, h.resets], by simp [Machine.takeReset, freeBlock, h.resets, h.blockBytes]⟩
    pos := by simp [Machine.takeReset, h.resets]
    cmdPort := by simp [Machine.takeReset, h.cmdPort]
    resetLine := rfl
    resets := congrArg Nat.succ h.resets }

/-- INIT's checks read nothing the two instances differ in (R131), and the registers it writes are its operands. -/
theorem SameStream.runInit {E : Cipher} {s t : State} (h : SameStream E s t) (key iv : List Byte) :
    SameStream E (runInit key iv s) (runInit key iv t) := by
  simp only [Machine.runInit, keyAccepted, h.identity.1, h.keyLens, h.blockBytes]
  split_ifs with hc hk hv
  · exact h.respond ..
  · exact h.respond ..
  · exact h.respond ..
  · have hk' : key.length ∈ s.cfg.keyLens := by simpa using hk
    have hv' : iv.length = s.cfg.blockBytes := by simpa using hv
    have hloaded : SameStream E
        { s.emit (.cipherKeyLoad key) with
          key := key, iv := iv, ctr := iv, len := 0, cur := 0, constructed := true, pos := 0 }
        { t.emit (.cipherKeyLoad key) with
          key := key, iv := iv, ctr := iv, len := 0, cur := 0, constructed := true, pos := 0 } :=
      { h with
        left_inv := h.left_inv.initialised hk' hv' _
        right_inv := h.right_inv.initialised (h.keyLens ▸ hk') (hv'.trans h.blockBytes.symm) _
        identity := ⟨rfl, rfl, rfl⟩
        pos := rfl
        observed := by simp [h.observed] }
    exact hloaded.respond ..

/-! ### Outcomes -/

/-- Related next states, or the same stop but for the encrypt requests seen before it. -/
inductive SameOutcome (E : Cipher) : Host.Outcome State Fault Refusal → Host.Outcome State Fault Refusal → Prop
  | next {s t : State} : SameStream E s t → SameOutcome E (.next s) (.next t)
  | fault {f g : Fault} : f.withoutEncrypts = g.withoutEncrypts → SameOutcome E (.fault f) (.fault g)
  | refused {q r : Refusal} : q.withoutEncrypts = r.withoutEncrypts → SameOutcome E (.refused q) (.refused r)

/-- A resource request stops on both alike, or is answered on both by the same answer. -/
theorem SameStream.askResource {E : Cipher} {s t : State} (h : SameStream E s t) {α : Type} (request : PortEvent)
    (admits : ResAnswer → Option α) :
    (∃ stop stop', askResource request admits s = .error stop ∧ askResource request admits t = .error stop' ∧
      SameOutcome E stop.outcome stop'.outcome) ∨
    (∃ a rest, askResource request admits s = .ok (a, s.asked request rest) ∧
      askResource request admits t = .ok (a, t.asked request rest)) := by
  have hseen : withoutEncrypts (s.trace ++ [request]) = withoutEncrypts (t.trace ++ [request]) := by
    simp [h.observed]
  cases hp : s.resPort with
  | nil =>
    exact .inl ⟨_, _, askResource_of_silence hp, askResource_of_silence (h.resPort.trans hp),
      .fault (congrArg Fault.resourceSilent hseen)⟩
  | cons answer rest =>
    have hp' := h.resPort.trans hp
    cases ha : admits answer with
    | none =>
      exact .inl ⟨_, _, askResource_of_unadmitted hp ha, askResource_of_unadmitted hp' ha,
        .refused (congrArg Refusal.resourceOutsideContract hseen)⟩
    | some a => exact .inr ⟨a, rest, askResource_of_admitted hp ha, askResource_of_admitted hp' ha⟩

/-! ### Commands -/

section
variable {E : Cipher} {s t : State}

theorem SameStream.runApply (h : SameStream E s t) (hc : s.constructed = true) (data : List Byte) :
    SameOutcome E (runApply E data s) (runApply E data t) := by
  obtain ⟨out, u, v, hu, hv, huv⟩ := h.applyCore hc data
  rw [runApply_of_core hc hu, runApply_of_core (h.identity.1.trans hc) hv]
  exact .next (huv.respond ..)

theorem SameStream.runSeekto (h : SameStream E s t) (hc : s.constructed = true) (offset : BitVec 64) :
    SameStream E (runSeekto E offset s) (runSeekto E offset t) := by
  have hc' := h.identity.1.trans hc
  cases hn : negativeOffset offset with
  | true =>
    simp only [Machine.runSeekto, hc, hc', hn, Bool.true_eq_false, if_false, if_true]
    exact h.respond ..
  | false =>
    rw [runSeekto_of_legal E hc hn, runSeekto_of_legal E hc' hn]
    exact (h.seekCore hc _).respond ..

theorem SameStream.runRd (h : SameStream E s t) (hc : s.constructed = true) (len : BitVec 64) :
    SameOutcome E (runRd E len s) (runRd E len t) := by
  have hc' := h.identity.1.trans hc
  obtain ⟨stop, stop', hs, ht, hout⟩ | ⟨⟨d, rstat⟩, rest, hs, ht⟩ := h.askResource (.resRead len) (readAnswer len)
  · simpa [Machine.runRd, resRead, hc, hc', hs, ht] using hout
  · obtain ⟨out, u, v, hu, hv, huv⟩ := (h.asked (.resRead len) rest).applyCore hc d
    simp only [Machine.runRd, resRead, hc, hc', hs, ht, hu, hv, Bool.true_eq_false, if_false]
    exact .next (huv.respond ..)

theorem SameStream.runWr (h : SameStream E s t) (hc : s.constructed = true) (data : List Byte) :
    SameOutcome E (runWr E data s) (runWr E data t) := by
  have hc' := h.identity.1.trans hc
  obtain ⟨out, u, v, hu, hv, huv⟩ := h.applyCore hc data
  obtain ⟨stop, stop', hs, ht, hout⟩ | ⟨⟨m, rstat⟩, rest, hs, ht⟩ := huv.askResource (.resWrite out) (writeAnswer out)
  · simpa [Machine.runWr, resWrite, hc, hc', hu, hv, hs, ht] using hout
  · simp only [Machine.runWr, resWrite, hc, hc', hu, hv, hs, ht, Bool.true_eq_false, if_false]
    exact .next ((huv.asked (.resWrite out) rest).respond ..)

theorem SameStream.runSeek (h : SameStream E s t) (hc : s.constructed = true) (offset : BitVec 64) (whence : Whence) :
    SameOutcome E (runSeek E offset whence s) (runSeek E offset whence t) := by
  have hc' := h.identity.1.trans hc
  cases hcan : s.cfg.resCanSeek with
  | false =>
    rw [runSeek_of_cannotSeek E offset whence hc hcan, runSeek_of_cannotSeek E offset whence hc' (h.canSeek.trans hcan)]
    exact .next (h.respond ..)
  | true =>
    have hcan' := h.canSeek.trans hcan
    obtain ⟨stop, stop', hs, ht, hout⟩ | ⟨⟨a, rstat⟩, rest, hs, ht⟩ :=
      h.askResource (.resSeek offset whence) seekAnswer
    · simpa [Machine.runSeek, resSeek, hc, hc', hcan, hcan', hs, ht] using hout
    · have hasked := h.asked (.resSeek offset whence) rest
      simp only [Machine.runSeek, resSeek, hc, hc', hcan, hcan', hs, ht, Bool.true_eq_false, if_false]
      split_ifs
      · exact .next (hasked.respond ..)
      · exact .next (hasked.respond ..)
      · exact .next ((hasked.seekCore hc _).respond ..)

theorem SameStream.runClose (h : SameStream E s t) (hc : s.constructed = true) :
    SameOutcome E (runClose s) (runClose t) := by
  have hc' := h.identity.1.trans hc
  cases hcan : s.cfg.resCanClose with
  | false =>
    simp only [Machine.runClose, hc, hc', hcan, h.canClose.trans hcan, Bool.true_eq_false, if_false, if_true]
    exact .next (h.respond ..)
  | true =>
    have hcan' := h.canClose.trans hcan
    obtain ⟨stop, stop', hs, ht, hout⟩ | ⟨rstat, rest, hs, ht⟩ := h.askResource .resClose closeAnswer
    · simpa [Machine.runClose, resClose, hc, hc', hcan, hcan', hs, ht] using hout
    · simp only [Machine.runClose, resClose, hc, hc', hcan, hcan', hs, ht, Bool.true_eq_false, if_false]
      exact .next ((h.asked .resClose rest).respond ..)

end

/-- R204: before INIT every other command is refused. -/
theorem exec_of_unconstructed {i : Instr} {s : State} (hi : isInit i = false) (hc : s.constructed = false) :
    exec i s = .next (s.raise .errNotConstructed) := by
  cases i with
  | init key iv => cases hi
  | apply data => exact if_pos hc
  | seekto offset => exact congrArg Host.Outcome.next (if_pos hc)
  | rd len => exact if_pos hc
  | wr data => exact if_pos hc
  | seekStart offset => exact if_pos hc
  | seekCur offset => exact if_pos hc
  | seekEnd offset => exact if_pos hc
  | close => exact if_pos hc

theorem SameStream.exec_constructed {s t : State} (h : SameStream Config.encryptByte s t) (hc : s.constructed = true)
    (i : Instr) : SameOutcome Config.encryptByte (exec i s) (exec i t) := by
  cases i with
  | init key iv => exact .next (h.runInit key iv)
  | apply data => exact h.runApply hc data
  | seekto offset => exact .next (h.runSeekto hc offset)
  | rd len => exact h.runRd hc len
  | wr data => exact h.runWr hc data
  | seekStart offset => exact h.runSeek hc offset .start
  | seekCur offset => exact h.runSeek hc offset .cur
  | seekEnd offset => exact h.runSeek hc offset .fromEnd
  | close => exact h.runClose hc

theorem SameStream.exec {s t : State} (h : SameStream Config.encryptByte s t) (i : Instr) :
    SameOutcome Config.encryptByte (exec i s) (exec i t) := by
  cases hc : s.constructed with
  | true => exact h.exec_constructed hc i
  | false =>
    cases hi : isInit i with
    | true =>
      cases i with
      | init key iv => exact .next (h.runInit key iv)
      | _ => cases hi
    | false =>
      rw [exec_of_unconstructed hi hc, exec_of_unconstructed hi (h.identity.1.trans hc)]
      exact .next (h.respond ..)

/-! ### Steps and runs -/

theorem SameStream.step {s t : State} (h : SameStream Config.encryptByte s t) :
    SameOutcome Config.encryptByte (step s) (step t) := by
  simp only [Machine.step, fetch, h.resetLine, h.cmdPort]
  split
  · exact .next h.takeReset
  · cases decode s.cmdPort with
    | noHeader => exact .next h
    | noPayload => exact .next h
    | illegal why rest => exact .next ((h.withPort rest).respond ..)
    | command i rest => exact (h.withPort rest).exec i

/-- R179 as a simulation: related states go through any number of steps alike. -/
theorem SameStream.run : ∀ (n : Nat) {s t : State}, SameStream Config.encryptByte s t →
    SameOutcome Config.encryptByte (Host.Core.run core n s) (Host.Core.run core n t)
  | 0, _, _, h => .next h
  | n + 1, s, t, h => by
    have hstep := h.step
    generalize hs : Machine.step s = a, ht : Machine.step t = b at hstep
    cases hstep with
    | next hst =>
      rw [run_succ_of_next core n hs, run_succ_of_next core n ht]
      exact SameStream.run n hst
    | fault hst =>
      rw [run_succ_of_fault core n hs, run_succ_of_fault core n ht]
      exact .fault hst
    | refused hst =>
      rw [run_succ_of_refused core n hs, run_succ_of_refused core n ht]
      exact .refused hst

/-- Settles O54, by the simulation of runs: the statement is `SameOutcome` written out. -/
theorem bufferSizeIndependence : Obligations.BufferSizeIndependence := by
  intro n s t h
  have hrun := h.run n
  generalize Host.Core.run core n s = a, Host.Core.run core n t = b at hrun ⊢
  cases hrun with
  | next hst => exact hst
  | fault hst => exact hst
  | refused hst => exact hst

end Sys2Proof.Machine
end

section
/-! PROOFS. Faults of commands (60_exceptions R204, R209, R212, R220): how a command that answers ends, and that one which
ends in a fault has done nothing before but SEEK's request. -/

namespace Sys2Proof.Machine

/-! ### The core that does nothing -/

/-- R220: without reset and with nothing on the command port a step does nothing. -/
theorem step_of_idle {s : State} (hr : s.resetLine = false) (hp : s.cmdPort = []) : step s = .next s := by
  have hd : fetch s = .noHeader := by rw [fetch, hp]; rfl
  simp [step, hr, hd]

/-- Settles O9, by induction on the number of steps: each of them is idle. -/
theorem idleCoreHoldsState : Obligations.IdleCoreHoldsState := by
  intro s n hr hp
  induction n with
  | zero => rfl
  | succ n ih => exact (run_succ_of_next core n (step_of_idle hr hp)).trans ih

/-- Settles O26: the lifecycle bit is the first thing each of these commands looks at. -/
theorem otherCommandsNeedInit : Obligations.OtherCommandsNeedInit :=
  ⟨rfl, fun _ _ hc hi => exec_of_unconstructed hi hc⟩

/-! ### How a command ends -/

/-- The last thing a command did, if it answered: it raised a fault in the state it started from, or raised ERR_NEG_OFFSET
after a SEEK's one request, or gave a response that is no fault. -/
inductive Ends (i : Instr) (s : State) : State → Prop where
  | raised (status : Status) : Ends i s (s.raise status)
  | negativePosition {whence : Whence} {offset a : BitVec 64} {rest : List ResAnswer} (hi : i = seekInstr whence offset)
      (hp : s.resPort = .seek a 0 :: rest) (ha : a.toInt < 0) :
      Ends i s ((s.asked (.resSeek offset whence) rest).raise .errNegOffset)
  | answered (u : State) {status : Status} (rstat : BitVec 32) (value : BitVec 64) (payload : List Byte)
      (hno : status.isFault = false) : Ends i s (u.respond status rstat value payload)

/-- R208: what the resource reports is no fault of the core. -/
theorem resourceStatus_isFault (rstat : BitVec 32) : (resourceStatus rstat).isFault = false := by
  unfold resourceStatus
  split <;> rfl

theorem ends_init (key iv : List Byte) (s : State) : Ends (.init key iv) s (runInit key iv s) := by
  obtain ⟨-, h⟩ | ⟨-, -, h⟩ | ⟨-, -, -, h⟩ | ⟨-, -, -, h⟩ := runInit_cases key iv s
  · exact h ▸ .raised _
  · exact h ▸ .raised _
  · exact h ▸ .raised _
  · exact h ▸ .answered _ _ _ _ rfl

theorem ends_seekto (E : Cipher) (offset : BitVec 64) (s : State) : Ends (.seekto offset) s (runSeekto E offset s) := by
  obtain ⟨-, h⟩ | ⟨-, -, h⟩ | ⟨-, -, h⟩ := runSeekto_cases E offset s
  · exact h ▸ .raised _
  · exact h ▸ .raised _
  · exact h ▸ .answered _ _ _ _ rfl

section
variable {E : Cipher} {s t : State}

theorem ends_apply {data : List Byte} (h : runApply E data s = .next t) : Ends (.apply data) s t := by
  obtain ⟨-, rfl⟩ | ⟨-, _, _, -, rfl⟩ := runApply_next h
  · exact .raised _
  · exact .answered _ _ _ _ rfl

theorem ends_rd {len : BitVec 64} (h : runRd E len s = .next t) : Ends (.rd len) s t := by
  obtain ⟨-, rfl⟩ | ⟨-, _, _, _, _, _, -, -, -, rfl⟩ := runRd_next h
  · exact .raised _
  · exact .answered _ _ _ _ (resourceStatus_isFault _)

theorem ends_wr {data : List Byte} (h : runWr E data s = .next t) : Ends (.wr data) s t := by
  obtain ⟨-, rfl⟩ | ⟨-, _, _, _, _, _, -, -, -, rfl⟩ := runWr_next h
  · exact .raised _
  · exact .answered _ _ _ _ (resourceStatus_isFault _)

theorem ends_seek {offset : BitVec 64} {whence : Whence} (h : runSeek E offset whence s = .next t) :
    Ends (seekInstr whence offset) s t := by
  obtain ⟨-, rfl⟩ | ⟨-, -, rfl⟩ | ⟨-, -, a, rstat, rest, hp, hcase⟩ := runSeek_next h
  · exact .raised _
  · exact .answered _ _ _ _ rfl
  · obtain ⟨-, rfl⟩ | ⟨rfl, hn, rfl⟩ | ⟨-, -, rfl⟩ := hcase
    · exact .answered _ _ _ _ rfl
    · exact .negativePosition rfl hp (negativeOffset_eq_true.1 hn)
    · exact .answered _ _ _ _ rfl

theorem ends_close (h : runClose s = .next t) : Ends .close s t := by
  obtain ⟨-, rfl⟩ | ⟨-, -, rfl⟩ | ⟨-, -, _, _, -, rfl⟩ := runClose_next h
  · exact .raised _
  · exact .answered _ _ _ _ rfl
  · exact .answered _ _ _ _ (resourceStatus_isFault _)

end

theorem exec_ends {i : Instr} {s t : State} (h : exec i s = .next t) : Ends i s t := by
  cases i with
  | init key iv => cases h; exact ends_init key iv s
  | apply data => exact ends_apply h
  | seekto offset => cases h; exact ends_seekto _ offset s
  | rd len => exact ends_rd h
  | wr data => exact ends_wr h
  | seekStart offset => exact ends_seek (whence := .start) h
  | seekCur offset => exact ends_seek (whence := .cur) h
  | seekEnd offset => exact ends_seek (whence := .fromEnd) h
  | close => exact ends_close h

/-! ### What a fault leaves -/

theorem SameGenerator.refl (s : State) : SameGenerator s s := ⟨⟨rfl, rfl, rfl⟩, rfl, rfl, rfl, rfl, rfl⟩

/-- The last response of a trace is the one just given. -/
theorem respond_trace_eq {s : State} {status : Status} {rstat : BitVec 32} {value : BitVec 64} {payload : List Byte}
    {earlier : List PortEvent} {r : Response}
    (h : (s.respond status rstat value payload).trace = earlier ++ [.response r]) :
    s.trace = earlier ∧ r = ⟨status, rstat, value, payload⟩ := by
  obtain ⟨htrace, hlast⟩ := List.append_inj' h rfl
  cases hlast
  exact ⟨htrace, rfl⟩

/-- Settles O22, by what the step took off the command port and how its command ended. -/
theorem faultsChangeNothing : Obligations.FaultsChangeNothing := by
  intro s t events r hr h ht hf
  obtain ⟨hr', -⟩ | ⟨-, -, hs⟩ | ⟨-, why, rest, hd, hs⟩ | ⟨-, i, rest, hd, hs⟩ := step_cases s
  · simp [hr] at hr'
  · cases hs.symm.trans h
    simp at ht
  · cases hs.symm.trans h
    obtain ⟨hev, rfl⟩ := respond_trace_eq ht
    exact ⟨rfl, rfl, rfl, .refl s, rfl, rfl, rfl, .inr ⟨why, hd⟩,
      .inl ⟨by simpa using hev, rfl⟩⟩
  · cases exec_ends (hs.symm.trans h) with
    | raised status =>
      obtain ⟨hev, rfl⟩ := respond_trace_eq ht
      exact ⟨rfl, rfl, rfl, .refl s, rfl, rfl, rfl, .inl ⟨i, hd⟩,
        .inl ⟨by simpa using hev, rfl⟩⟩
    | @negativePosition whence offset a _ hi hp ha =>
      obtain ⟨hev, rfl⟩ := respond_trace_eq ht
      have hev' : events = [.resSeek offset whence] := (List.append_cancel_left hev).symm
      exact ⟨rfl, rfl, rfl, .refl s, rfl, rfl, rfl, .inl ⟨i, hd⟩,
        .inr ⟨rfl, whence, offset, a, hi ▸ hd, hp, ha, hev'⟩⟩
    | answered u rstat value payload hno =>
      obtain ⟨-, rfl⟩ := respond_trace_eq ht
      cases hno.symm.trans hf

end Sys2Proof.Machine
end

section
/-! PROOFS. Illegal headers (30_encoding R88, R89; 60_exceptions R206): R89's list against the decoder and against the rows of
the opcode map, each by the three fields of a header. -/

namespace Sys2Proof

/-! ### R89's list and the decoder -/

theorem plainSub_error_iff {sub : BitVec 8} {hd : Header} : (∃ why, plainSub sub hd = .error why) ↔ sub ≠ 0 := by
  unfold plainSub
  split <;> simp_all

/-- R83: the whence codes are 0, 1 and 2. -/
theorem three_le_toNat_iff {sub : BitVec 8} : 3 ≤ sub.toNat ↔ sub ≠ 0 ∧ sub ≠ 1 ∧ sub ≠ 2 := by
  bv_omega

theorem decodeSeek_error_iff {sub : BitVec 8} {offset : BitVec 64} :
    (∃ why, decodeSeek sub offset = .error why) ↔ 3 ≤ sub.toNat := by
  rw [three_le_toNat_iff]
  unfold decodeSeek
  split_ifs <;> simp_all

theorem decodeClose_error_iff {sub : BitVec 8} {arg : BitVec 64} :
    (∃ why, decodeClose sub arg = .error why) ↔ sub ≠ 0 ∨ arg ≠ 0 := by
  unfold decodeClose
  split_ifs <;> simp_all

/-- R89, R92: the listed headers are those the decoder rejects, opcode by opcode. -/
theorem illegalHeader_iff_error (h : BitVec 80) : Machine.IllegalHeader h ↔ ∃ why, decodeHeader h = .error why := by
  unfold Machine.IllegalHeader decodeHeader
  dsimp only
  split_ifs with h1 h2 h3 h4 h5 h6 h7
  · simp [h1, plainSub_error_iff]
  · simp [h2, plainSub_error_iff]
  · simp [h3, plainSub_error_iff]
  · simp [h4, plainSub_error_iff]
  · simp [h5, plainSub_error_iff]
  · simp [h6, decodeSeek_error_iff]
  · simp [h7, decodeClose_error_iff]
  · simp_all

/-! ### R89's list and the rows -/

/-- R88: a row with the mask of `op` and `sub` is selected by those two fields. -/
theorem selects_opSub_iff {r : Row} {op sub : BitVec 8} (hm : r.mask = 0xFFFF0000000000000000)
    (hp : r.pattern = packHeader op sub 0) (h : BitVec 80) :
    r.selects h = true ↔ headerOp h = op ∧ headerSub h = sub := by
  rw [Row.selects, hm, hp, beq_iff_eq, ← packHeader_fields h, packHeader_and_opSubMask, packHeader_inj]
  simp

/-- R88: CLOSE's row is selected by all three fields. -/
theorem selects_full_iff {r : Row} {op sub : BitVec 8} {arg : BitVec 64} (hm : r.mask = 0xFFFFFFFFFFFFFFFFFFFF)
    (hp : r.pattern = packHeader op sub arg) (h : BitVec 80) :
    r.selects h = true ↔ headerOp h = op ∧ headerSub h = sub ∧ headerArg h = arg := by
  rw [Row.selects, hm, hp, beq_iff_eq, and_fullMask, ← packHeader_inj, packHeader_fields]

/-- The `op` and `sub` of the eight rows that do not look at `arg` (R88). -/
def opSubRows : List (BitVec 8 × BitVec 8) :=
  [(0x01, 0), (0x02, 0), (0x03, 0), (0x10, 0), (0x11, 0), (0x12, 0), (0x12, 1), (0x12, 2)]

/-- R88 by fields instead of masks: what no row selects. -/
theorem no_row_selects_iff (h : BitVec 80) : (∀ r ∈ opcodeRows, r.selects h = false) ↔
    (headerOp h, headerSub h) ∉ opSubRows ∧ ¬ (headerOp h = 0x13 ∧ headerSub h = 0 ∧ headerArg h = 0) := by
  simp only [← Bool.not_eq_true, opcodeRows, List.forall_mem_cons, List.not_mem_nil, false_implies, implies_true, and_true]
  rw [selects_opSub_iff rfl (show _ = packHeader 0x01 0 0 by decide),
    selects_opSub_iff rfl (show _ = packHeader 0x02 0 0 by decide),
    selects_opSub_iff rfl (show _ = packHeader 0x03 0 0 by decide),
    selects_opSub_iff rfl (show _ = packHeader 0x10 0 0 by decide),
    selects_opSub_iff rfl (show _ = packHeader 0x11 0 0 by decide),
    selects_opSub_iff rfl (show _ = packHeader 0x12 0 0 by decide),
    selects_opSub_iff rfl (show _ = packHeader 0x12 1 0 by decide),
    selects_opSub_iff rfl (show _ = packHeader 0x12 2 0 by decide),
    selects_full_iff rfl (show _ = packHeader 0x13 0 0 by decide)]
  simp only [opSubRows, List.mem_cons, Prod.mk.injEq, List.not_mem_nil, or_false, not_or, and_assoc]

/-- R88, R89: the listed headers are those no row selects; each known opcode has a row for each `sub` it allows. -/
theorem illegalHeader_iff_no_row (h : BitVec 80) :
    Machine.IllegalHeader h ↔ ∀ r ∈ opcodeRows, r.selects h = false := by
  rw [no_row_selects_iff]
  unfold Machine.IllegalHeader
  rw [three_le_toNat_iff]
  by_cases hop : headerOp h ∈ [0x01, 0x02, 0x03, 0x10, 0x11, 0x12, 0x13]
  · simp only [List.mem_cons, List.not_mem_nil, or_false] at hop
    obtain hop | hop | hop | hop | hop | hop | hop := hop <;> simp [hop, opSubRows, imp_iff_not_or]
  · simp_all [opSubRows]

end Sys2Proof

namespace Sys2Proof.Machine

/-- R89: an illegal header has no payload. -/
theorem decode_illegal {h : BitVec 80} {why : Reject} (hw : decodeHeader h = .error why) (rest : List Byte) :
    decode (headerBytes h ++ rest) = .illegal why rest := by
  have hlen : ¬ (headerBytes h ++ rest).length < headerLength := by simp
  rw [decode, if_neg hlen, List.take_left' (length_headerBytes h), headerOfBytes_headerBytes, hw,
    List.drop_left' (length_headerBytes h)]

/-- Settles O6: the rows by their fields, the step by the decoder's verdict. -/
theorem illegalHeadersFault : Obligations.IllegalHeadersFault := by
  refine ⟨rfl, illegalHeader_iff_no_row, fun h rest s hill hr hp => ?_⟩
  obtain ⟨why, hw⟩ := (illegalHeader_iff_error h).1 hill
  have hd : fetch s = .illegal why rest := by rw [fetch, hp, decode_illegal hw]
  have hs : step s = .next (illegalCommand rest s) := by simp [step, hr, hd]
  exact hs

end Sys2Proof.Machine
end

section
/-! PROOFS. Encoding (30_encoding section 1 and 3): a header and its ten bytes, a command and its header with payload; each pair is
inverse, so decode and encode are. -/

namespace Sys2Proof

/-! ### Headers as written by the encoder (30_encoding R80 to R83, R88) -/

/-- The header whose fields are those of a decoded header. -/
def Header.pack : Header → BitVec 80
  | .init klen ivlen => packHeader 0x01 0 (klen ++ ivlen)
  | .apply len => packHeader 0x02 0 len
  | .seekto offset => packHeader 0x03 0 offset
  | .rd len => packHeader 0x10 0 len
  | .wr len => packHeader 0x11 0 len
  | .seekStart offset => packHeader 0x12 0 offset
  | .seekCur offset => packHeader 0x12 1 offset
  | .seekEnd offset => packHeader 0x12 2 offset
  | .close => packHeader 0x13 0 0

/-- The fields of a command's header: the operands it holds itself and the lengths of its byte strings (R82). -/
def Instr.header : Instr → Header
  | .init key iv => .init (lengthField32 key) (lengthField32 iv)
  | .apply data => .apply (lengthField64 data)
  | .seekto offset => .seekto offset
  | .rd len => .rd len
  | .wr data => .wr (lengthField64 data)
  | .seekStart offset => .seekStart offset
  | .seekCur offset => .seekCur offset
  | .seekEnd offset => .seekEnd offset
  | .close => .close

theorem encodeHeader_eq (i : Instr) : encodeHeader i = i.header.pack := by cases i <;> rfl

@[simp] theorem argKlen_append (klen ivlen : BitVec 32) : argKlen (klen ++ ivlen) = klen :=
  BitVec.extractLsb'_append_eq_left

@[simp] theorem argIvlen_append (klen ivlen : BitVec 32) : argIvlen (klen ++ ivlen) = ivlen :=
  BitVec.extractLsb'_append_eq_right

@[simp] theorem argKlen_append_argIvlen (arg : BitVec 64) : argKlen arg ++ argIvlen arg = arg := by
  unfold argKlen argIvlen
  ext i hi
  simp only [BitVec.getElem_append, BitVec.getElem_extractLsb']
  split
  · rw [Nat.zero_add, BitVec.getLsbD_eq_getElem hi]
  · rw [show 32 + (i - 32) = i by omega, BitVec.getLsbD_eq_getElem hi]

theorem plainSub_ok_iff {sub : BitVec 8} {hd hd' : Header} : plainSub sub hd = .ok hd' ↔ sub = 0 ∧ hd = hd' := by
  unfold plainSub
  split <;> simp_all

theorem decodeSeek_ok {sub : BitVec 8} {offset : BitVec 64} {hd : Header} (h : decodeSeek sub offset = .ok hd) :
    hd.pack = packHeader 0x12 sub offset := by
  unfold decodeSeek at h
  split_ifs at h with h0 h1 h2
  · cases h; simp [Header.pack, h0]
  · cases h; simp [Header.pack, h1]
  · cases h; simp [Header.pack, h2]

theorem decodeClose_ok {sub : BitVec 8} {arg : BitVec 64} {hd : Header} (h : decodeClose sub arg = .ok hd) :
    hd.pack = packHeader 0x13 sub arg := by
  unfold decodeClose at h
  split_ifs at h with h0 h1
  cases h
  simp [Header.pack, h0, h1]

/-- R92: the decoder reads the fields the encoder packs. -/
@[simp] theorem decodeHeader_pack (hd : Header) : decodeHeader hd.pack = .ok hd := by
  cases hd <;> simp [decodeHeader, Header.pack, plainSub, decodeSeek, decodeClose]

/-- R92: an accepted header has no bit but those of the fields it decodes to. -/
theorem pack_of_decodeHeader {h : BitVec 80} {hd : Header} (hok : decodeHeader h = .ok hd) : hd.pack = h := by
  rw [← packHeader_fields h]
  unfold decodeHeader at hok
  dsimp only at hok
  split_ifs at hok with h1 h2 h3 h4 h5 h6 h7
  · obtain ⟨hsub, rfl⟩ := plainSub_ok_iff.1 hok; simp [Header.pack, h1, hsub]
  · obtain ⟨hsub, rfl⟩ := plainSub_ok_iff.1 hok; simp [Header.pack, h2, hsub]
  · obtain ⟨hsub, rfl⟩ := plainSub_ok_iff.1 hok; simp [Header.pack, h3, hsub]
  · obtain ⟨hsub, rfl⟩ := plainSub_ok_iff.1 hok; simp [Header.pack, h4, hsub]
  · obtain ⟨hsub, rfl⟩ := plainSub_ok_iff.1 hok; simp [Header.pack, h5, hsub]
  · rw [h6, decodeSeek_ok hok]
  · rw [h7, decodeClose_ok hok]

/-! ### Payloads (R82 to R84) -/

theorem toNat_lengthField32 {bs : List Byte} (h : bs.length < 2 ^ 32) : (lengthField32 bs).toNat = bs.length := by
  rw [lengthField32, BitVec.toNat_ofNat, Nat.mod_eq_of_lt h]

theorem toNat_lengthField64 {bs : List Byte} (h : bs.length < 2 ^ 64) : (lengthField64 bs).toNat = bs.length := by
  rw [lengthField64, BitVec.toNat_ofNat, Nat.mod_eq_of_lt h]

theorem lengthField32_eq {bs : List Byte} {n : BitVec 32} (h : bs.length = n.toNat) : lengthField32 bs = n := by
  rw [lengthField32, h, BitVec.ofNat_toNat, BitVec.setWidth_eq]

theorem lengthField64_eq {bs : List Byte} {n : BitVec 64} (h : bs.length = n.toNat) : lengthField64 bs = n := by
  rw [lengthField64, h, BitVec.ofNat_toNat, BitVec.setWidth_eq]

/-- A well-formed command's header asks for exactly its payload, and with it makes the command again. -/
theorem Instr.header_payload {i : Instr} (h : i.wf = true) :
    i.header.payloadLength = (encodePayload i).length ∧ i.header.instr (encodePayload i) = i := by
  cases i with
  | init key iv =>
    simp only [Instr.wf, Bool.and_eq_true, decide_eq_true_eq] at h
    simp [Instr.header, Header.payloadLength, Header.instr, encodePayload, toNat_lengthField32 h.1,
      toNat_lengthField32 h.2]
  | apply data =>
    exact ⟨toNat_lengthField64 (of_decide_eq_true h), rfl⟩
  | wr data =>
    exact ⟨toNat_lengthField64 (of_decide_eq_true h), rfl⟩
  | _ => exact ⟨rfl, rfl⟩

/-- A header with a payload of the length it asks for makes a well-formed command with that header and that payload. -/
theorem Header.instr_encodes {hd : Header} {payload : List Byte} (h : payload.length = hd.payloadLength) :
    (hd.instr payload).wf = true ∧ (hd.instr payload).header = hd ∧ encodePayload (hd.instr payload) = payload := by
  cases hd with
  | init klen ivlen =>
    have hk : (payload.take klen.toNat).length = klen.toNat := by
      rw [List.length_take, h]; exact Nat.min_eq_left (Nat.le_add_right ..)
    have hv : (payload.drop klen.toNat).length = ivlen.toNat := by
      rw [List.length_drop, h]; exact Nat.add_sub_cancel_left ..
    have hklt := klen.isLt
    have hvlt := ivlen.isLt
    refine ⟨?_, ?_, List.take_append_drop ..⟩
    · simp only [Header.instr, Instr.wf, Bool.and_eq_true, decide_eq_true_eq, hk, hv]
      exact ⟨hklt, hvlt⟩
    · simp only [Header.instr, Instr.header, lengthField32_eq hk, lengthField32_eq hv]
  | apply len =>
    exact ⟨decide_eq_true (h.trans_lt len.isLt), congrArg Header.apply (lengthField64_eq h), rfl⟩
  | wr len =>
    exact ⟨decide_eq_true (h.trans_lt len.isLt), congrArg Header.wr (lengthField64_eq h), rfl⟩
  | _ => exact ⟨rfl, rfl, (List.eq_nil_of_length_eq_zero h).symm⟩

/-! ### Whole commands (R84) -/

/-- The bytes of a header, as many payload bytes as it asks for, and anything after them decode to their command. -/
theorem decode_pack (hd : Header) {payload : List Byte} (h : payload.length = hd.payloadLength) (rest : List Byte) :
    decode (headerBytes hd.pack ++ (payload ++ rest)) = .command (hd.instr payload) rest := by
  have hlen : ¬ (headerBytes hd.pack ++ (payload ++ rest)).length < headerLength := by simp
  have hbody : ¬ (payload ++ rest).length < hd.payloadLength := by rw [List.length_append]; omega
  rw [decode, if_neg hlen, List.take_left' (length_headerBytes _), headerOfBytes_headerBytes, decodeHeader_pack,
    List.drop_left' (length_headerBytes _)]
  simp only [if_neg hbody, List.take_left' h, List.drop_left' h]

/-- Whatever decodes to a command is a header's bytes, its payload, and what follows. -/
theorem decode_command {bytes rest : List Byte} {i : Instr} (h : decode bytes = .command i rest) :
    ∃ (hd : Header) (payload : List Byte), payload.length = hd.payloadLength ∧
      bytes = headerBytes hd.pack ++ (payload ++ rest) ∧ i = hd.instr payload := by
  unfold decode at h
  split at h
  · cases h
  · rename_i hlen
    split at h
    · cases h
    · rename_i hd hok
      dsimp only at h
      split at h
      · cases h
      · rename_i hbody
        cases h
        have htake : (bytes.take headerLength).length = headerLength := List.length_take_of_le (by omega)
        refine ⟨hd, _, List.length_take_of_le (by omega), ?_, rfl⟩
        rw [pack_of_decodeHeader hok, headerBytes_headerOfBytes htake, List.take_append_drop, List.take_append_drop]

/-- Settles O4: the encoder writes the command's header fields and payload, which decode to the command. -/
theorem decodeOfEncode : Obligations.DecodeOfEncode := by
  intro i rest hwf
  obtain ⟨hlen, hinstr⟩ := Instr.header_payload hwf
  have hdec := decode_pack i.header hlen.symm rest
  rw [hinstr] at hdec
  rw [encode, encodeHeader_eq, List.append_assoc, hdec]

/-- Settles O5: the bytes are a header and a payload, and the encoder writes both again. -/
theorem encodeOfDecode : Obligations.EncodeOfDecode := by
  intro bytes i rest h
  obtain ⟨hd, payload, hlen, rfl, rfl⟩ := decode_command h
  obtain ⟨hwf, hhd, hpay⟩ := Header.instr_encodes hlen
  exact ⟨hwf, by rw [encode, encodeHeader_eq, hhd, hpay, List.append_assoc]⟩

/-! ### The opcode map (R88, R92) -/

/-- A selected row's pattern is `op` and `sub` of the header: every mask keeps at least those two fields, and no pattern
has a bit outside them. -/
theorem pattern_of_selects {r : Row} {h : BitVec 80} (hr : r ∈ opcodeRows) (hs : r.selects h = true) :
    r.pattern = packHeader (headerOp h) (headerSub h) 0 := by
  have hmask : ∀ r ∈ opcodeRows, r.mask &&& 0xFFFF0000000000000000 = 0xFFFF0000000000000000 ∧
      r.pattern &&& 0xFFFF0000000000000000 = r.pattern := by decide
  obtain ⟨hm, hp⟩ := hmask r hr
  have hsel : h &&& r.mask = r.pattern := eq_of_beq hs
  rw [← hp, ← hsel, BitVec.and_assoc, hm, ← packHeader_and_opSubMask _ _ (headerArg h), packHeader_fields]

/-- Settles O3: rows that one header selects have one pattern, and the nine patterns differ. -/
theorem opcodeRowsDisjoint : Obligations.OpcodeRowsDisjoint := by
  have hinj : ∀ r ∈ opcodeRows, ∀ r' ∈ opcodeRows, r.pattern = r'.pattern → r = r' := by decide
  refine ⟨rfl, fun h r hr r' hr' hs hs' => hinj r hr r' hr' ?_⟩
  rw [pattern_of_selects hr hs, pattern_of_selects hr' hs']

/-- R88: a decoded header selects the row of its command. -/
theorem decoded_selects_row {h : BitVec 80} {hd : Header} (hok : decodeHeader h = .ok hd) :
    ∃ r ∈ opcodeRows, r.selects h = true ∧ r.mnemonic = Machine.headerMnemonic hd := by
  have hlen : (List.replicate hd.payloadLength (0 : Byte)).length = hd.payloadLength := List.length_replicate
  obtain ⟨-, hhd, -⟩ := Header.instr_encodes hlen
  have hrow : Laws.EncodesItsRow.Statement (hd.instr (List.replicate hd.payloadLength 0)) := by
    cases hd with
    | init => exact Laws.EncodesItsRow.init _ _
    | apply => exact Laws.EncodesItsRow.apply _
    | seekto => exact Laws.EncodesItsRow.seekto _
    | rd => exact Laws.EncodesItsRow.rd _
    | wr => exact Laws.EncodesItsRow.wr _
    | seekStart => exact Laws.EncodesItsRow.seekStart _
    | seekCur => exact Laws.EncodesItsRow.seekCur _
    | seekEnd => exact Laws.EncodesItsRow.seekEnd _
    | close => exact Laws.EncodesItsRow.close
  obtain ⟨r, hr, hmn, hs⟩ := hrow
  rw [encodeHeader_eq, hhd, pack_of_decodeHeader hok] at hs
  exact ⟨r, hr, hs, hmn.trans (by cases hd <;> rfl)⟩

/-- Settles O2: a decoded header selects its command's row; a selected header is not illegal, so it decodes, and by
disjointness the row is that command's. -/
theorem decoderAgreesWithOpcodeMap : Obligations.DecoderAgreesWithOpcodeMap := by
  refine fun h => ⟨fun hd hok => decoded_selects_row hok, fun r hr hs => ?_⟩
  cases hdec : decodeHeader h with
  | error why =>
    have hnone := (illegalHeader_iff_no_row h).1 ((illegalHeader_iff_error h).2 ⟨why, hdec⟩) r hr
    simp [hs] at hnone
  | ok hd =>
    obtain ⟨r', hr', hs', hmn⟩ := decoded_selects_row hdec
    exact ⟨hd, rfl, by rw [opcodeRowsDisjoint.2 h r hr r' hr' hs hs', hmn]⟩

/-! ### Sample words -/

/-- Settles O1: fixed words, so the serialiser and the decoder are evaluated. -/
theorem sampleHeadersDecode : Obligations.SampleHeadersDecode := by
  unfold Obligations.SampleHeadersDecode
  decide

/-- Settles O7: fixed responses, so their words and bytes are evaluated. -/
theorem sampleResponseWords : Obligations.SampleResponseWords := by
  unfold Obligations.SampleResponseWords
  decide

end Sys2Proof
end

section
/-! PROOFS. The invariant along every step (10_state section 2, 43_laws section 1): each command keeps it, and from a state
that meets it a command's only fault is a silent resource (70_reset_and_hazards R242). -/

namespace Sys2Proof.Machine

/-! ### Commands that answer -/

section
variable {E : Cipher} {s t : State}

theorem runInit_inv (h : Inv E s) (key iv : List Byte) : Inv E (runInit key iv s) := by
  obtain ⟨-, e⟩ | ⟨-, -, e⟩ | ⟨-, -, -, e⟩ | ⟨-, hk, hv, e⟩ := runInit_cases key iv s <;> rw [e]
  · exact h.respond ..
  · exact h.respond ..
  · exact h.respond ..
  · exact (h.initialised hk hv (s.trace ++ [.cipherKeyLoad key])).respond ..

/-- An answering APPLY_core keeps the invariant. -/
theorem Inv.applyCore {out src : List Byte} (h : Inv E s) (hc : s.constructed = true)
    (hcore : applyCore E src s = .ok (out, t)) : Inv E t := by
  obtain ⟨u, hu, -, hinv, -⟩ := applyCore_of_inv h hc src
  cases hu.symm.trans hcore
  exact hinv

theorem runApply_inv {data : List Byte} (h : Inv E s) (hrun : runApply E data s = .next t) : Inv E t := by
  obtain ⟨-, rfl⟩ | ⟨hc, _, _, hcore, rfl⟩ := runApply_next hrun
  · exact h.respond ..
  · exact (h.applyCore hc hcore).respond ..

theorem runSeekto_inv (h : Inv E s) (offset : BitVec 64) : Inv E (runSeekto E offset s) := by
  obtain ⟨-, e⟩ | ⟨-, -, e⟩ | ⟨hc, -, e⟩ := runSeekto_cases E offset s <;> rw [e]
  · exact h.respond ..
  · exact h.respond ..
  · exact (seekCore_inv h hc _).respond ..

theorem runRd_inv {len : BitVec 64} (h : Inv E s) (hrun : runRd E len s = .next t) : Inv E t := by
  obtain ⟨-, rfl⟩ | ⟨hc, _, _, rest, _, _, -, -, hcore, rfl⟩ := runRd_next hrun
  · exact h.respond ..
  · exact ((h.asked (.resRead len) rest).applyCore hc hcore).respond ..

theorem runWr_inv {data : List Byte} (h : Inv E s) (hrun : runWr E data s = .next t) : Inv E t := by
  obtain ⟨-, rfl⟩ | ⟨hc, scratch, _, _, _, rest, hcore, -, -, rfl⟩ := runWr_next hrun
  · exact h.respond ..
  · exact ((h.applyCore hc hcore).asked (.resWrite scratch) rest).respond ..

theorem runSeek_inv {offset : BitVec 64} {whence : Whence} (h : Inv E s) (hrun : runSeek E offset whence s = .next t) :
    Inv E t := by
  obtain ⟨-, rfl⟩ | ⟨-, -, rfl⟩ | ⟨hc, -, _, _, rest, -, hcase⟩ := runSeek_next hrun
  · exact h.respond ..
  · exact h.respond ..
  · have hasked := h.asked (.resSeek offset whence) rest
    obtain ⟨-, rfl⟩ | ⟨-, -, rfl⟩ | ⟨-, -, rfl⟩ := hcase
    · exact hasked.respond ..
    · exact hasked.respond ..
    · exact (seekCore_inv hasked hc _).respond ..

theorem runClose_inv (h : Inv E s) (hrun : runClose s = .next t) : Inv E t := by
  obtain ⟨-, rfl⟩ | ⟨-, -, rfl⟩ | ⟨-, -, _, rest, -, rfl⟩ := runClose_next hrun
  · exact h.respond ..
  · exact h.respond ..
  · exact (h.asked .resClose rest).respond ..

end

theorem exec_inv {i : Instr} {s t : State} (h : Inv Config.encryptByte s) (hexec : exec i s = .next t) :
    Inv Config.encryptByte t := by
  cases i with
  | init key iv => cases hexec; exact runInit_inv h key iv
  | apply data => exact runApply_inv h hexec
  | seekto offset => cases hexec; exact runSeekto_inv h offset
  | rd len => exact runRd_inv h hexec
  | wr data => exact runWr_inv h hexec
  | seekStart offset => exact runSeek_inv (whence := .start) h hexec
  | seekCur offset => exact runSeek_inv (whence := .cur) h hexec
  | seekEnd offset => exact runSeek_inv (whence := .fromEnd) h hexec
  | close => exact runClose_inv h hexec

theorem Inv.withPort {E : Cipher} {s : State} (h : Inv E s) (rest : List Byte) : Inv E (s.withPort rest) :=
  h.of_sameGenerator rfl (.refl s)

/-- Settles O17, by what the step does: reset, nothing, an illegal header, or a command. -/
theorem stepKeepsInv : Obligations.StepKeepsInv := by
  intro s t h hstep
  obtain ⟨-, e⟩ | ⟨-, -, e⟩ | ⟨-, _, rest, -, e⟩ | ⟨-, i, rest, -, e⟩ := step_cases s
  · cases e.symm.trans hstep; exact takeReset_inv
  · cases e.symm.trans hstep; exact h
  · cases e.symm.trans hstep; exact (h.withPort rest).respond ..
  · exact exec_inv (h.withPort rest) (e.symm.trans hstep)

/-- Settles O16: the reset state is unconstructed and its buffer is empty. -/
theorem resetStateMeetsInv : Obligations.ResetStateMeetsInv where
  sizes := ⟨rfl, fun _ _ => rfl, by simp [State.reset, freeBlock], by simp [State.reset, freeBlock], Nat.le_refl _,
    Nat.zero_le _⟩
  unconstructed_empty _ := ⟨rfl, rfl⟩
  stream := nofun

/-! ### Commands that fault -/

/-- The only fault of a resource request is the silence of the resource, with the request seen (log 18). -/
theorem askResource_fault {α : Type} {request : PortEvent} {admits : ResAnswer → Option α} {s : State} {stop : Stop}
    {f : Fault} (h : askResource request admits s = .error stop) (hf : stop.outcome = .fault f) :
    f = .resourceSilent (s.trace ++ [request]) := by
  obtain ⟨-, rfl⟩ | ⟨_, _, -, -, rfl⟩ := askResource_error h
  · cases hf; rfl
  · cases hf

section
variable {E : Cipher} {s : State} {f : Fault}

theorem runApply_no_fault {data : List Byte} (h : Inv E s) : runApply E data s ≠ .fault f := by
  cases hc : s.constructed with
  | false => simp [runApply, hc]
  | true =>
    obtain ⟨u, hcore, -⟩ := applyCore_of_inv h hc data
    simp [runApply_of_core hc hcore]

/-- RD asks before it generates any keystream (R151), so its fault shows its request only. -/
theorem runRd_fault {len : BitVec 64} (h : Inv E s) (hf : runRd E len s = .fault f) :
    f = .resourceSilent (s.trace ++ [.resRead len]) := by
  unfold runRd at hf
  split at hf
  · cases hf
  · rename_i hc
    split at hf
    · exact askResource_fault ‹_› hf
    · rename_i d rstat s₁ hr
      obtain ⟨rest, -, -, rfl⟩ := resRead_ok hr
      have hc' : s.constructed = true := by simpa using hc
      obtain ⟨u, hcore, -⟩ := applyCore_of_inv (h.asked (.resRead len) rest) hc' d
      rw [State.asked] at hcore
      rw [hcore] at hf
      cases hf

/-- WR's fault comes after its encryption (R153): the requests of APPLY_core are in it. -/
theorem runWr_fault {data : List Byte} (h : Inv E s) (hf : runWr E data s = .fault f) :
    s.constructed = true ∧ ∃ scratch u, applyCore E data s = .ok (scratch, u) ∧
      f = .resourceSilent (u.trace ++ [.resWrite scratch]) := by
  unfold runWr at hf
  split at hf
  · cases hf
  · rename_i hc
    have hc' : s.constructed = true := by simpa using hc
    obtain ⟨u, hcore, -⟩ := applyCore_of_inv h hc' data
    rw [hcore] at hf
    dsimp only at hf
    split at hf
    · exact ⟨hc', _, u, hcore, askResource_fault ‹_› hf⟩
    · cases hf

theorem runSeek_fault {offset : BitVec 64} {whence : Whence} (hf : runSeek E offset whence s = .fault f) :
    f = .resourceSilent (s.trace ++ [.resSeek offset whence]) := by
  unfold runSeek at hf
  split_ifs at hf
  split at hf
  · exact askResource_fault ‹_› hf
  · split_ifs at hf

theorem runClose_fault (hf : runClose s = .fault f) : f = .resourceSilent (s.trace ++ [.resClose]) := by
  unfold runClose at hf
  split_ifs at hf
  split at hf
  · exact askResource_fault ‹_› hf
  · cases hf

end

theorem exec_fault_silent {i : Instr} {s : State} {f : Fault} (h : Inv Config.encryptByte s) (hf : exec i s = .fault f) :
    ∃ seen, f = .resourceSilent seen := by
  cases i with
  | init key iv => cases hf
  | apply data => exact absurd hf (runApply_no_fault h)
  | seekto offset => cases hf
  | rd len => exact ⟨_, runRd_fault h hf⟩
  | wr data =>
    obtain ⟨-, _, _, -, e⟩ := runWr_fault h hf
    exact ⟨_, e⟩
  | seekStart offset => exact ⟨_, runSeek_fault (whence := .start) hf⟩
  | seekCur offset => exact ⟨_, runSeek_fault (whence := .cur) hf⟩
  | seekEnd offset => exact ⟨_, runSeek_fault (whence := .fromEnd) hf⟩
  | close => exact ⟨_, runClose_fault hf⟩

theorem step_fault_silent {s : State} {f : Fault} (h : Inv Config.encryptByte s) (hf : step s = .fault f) :
    ∃ seen, f = .resourceSilent seen := by
  obtain ⟨-, e⟩ | ⟨-, -, e⟩ | ⟨-, _, _, -, e⟩ | ⟨-, i, rest, -, e⟩ := step_cases s
  · cases e.symm.trans hf
  · cases e.symm.trans hf
  · cases e.symm.trans hf
  · exact exec_fault_silent (h.withPort rest) (e.symm.trans hf)

/-- Settles O18: the only fault a step can end in is the silence of the resource. -/
theorem bufferNeverMisread : Obligations.BufferNeverMisread := by
  refine fun s h => ⟨fun hf => ?_, fun hf => ?_⟩
  · obtain ⟨_, e⟩ := step_fault_silent h hf
    cases e
  · obtain ⟨_, e⟩ := step_fault_silent h hf
    cases e

end Sys2Proof.Machine
end

section
/-! PROOFS. What every command leaves alone, and how it answers (10_state section 1, 30_encoding section 2, 42 section 4): each
command that answers goes to a state of the same frame, and ends with one response that fits the command. -/

namespace Sys2Proof.Machine

/-! ### The frame of a command up to its response -/

@[simp] theorem responses_append (xs ys : List PortEvent) : responses (xs ++ ys) = responses xs ++ responses ys :=
  List.filterMap_append ..

@[simp] theorem responses_encrypts (blocks : List (List Byte)) :
    responses (blocks.map PortEvent.cipherEncrypt) = [] := by
  simp [responses, PortEvent.response?]

/-- What a command has done by the time it responds. -/
structure BeforeResponse (i : Instr) (s u : State) : Prop where
  host : SameHost s u
  outside : SameOutsideBuffer s u
  trace : ∃ events, u.trace = s.trace ++ events ∧ responses events = []
  identity : isInit i = false → SameIdentity s u
  generatorLayer : usesResource i = false → u.resPort = s.resPort
  answers : u.resPort = s.resPort ∨ ∃ a, s.resPort = a :: u.resPort
  initBuffer : isInit i = true → u.buf = s.buf
  closeGenerator : i = .close → SameGenerator s u

/-- A command that responds at once has done nothing before. -/
theorem BeforeResponse.refl (i : Instr) (s : State) : BeforeResponse i s s where
  host := ⟨rfl, rfl, rfl, rfl⟩
  outside _ _ := rfl
  trace := ⟨[], by simp, rfl⟩
  identity _ := ⟨rfl, rfl, rfl⟩
  generatorLayer _ := rfl
  answers := .inl rfl
  initBuffer _ := rfl
  closeGenerator _ := .refl s

/-- A command of the generator layer that works on the lookahead only. -/
theorem LookaheadStep.beforeResponse {i : Instr} {s u : State} (h : LookaheadStep s u) (ho : SameOutsideBuffer s u)
    (hi : isInit i = false) (hcl : i ≠ .close) : BeforeResponse i s u where
  host := h.sameHost
  outside := ho
  trace := by
    obtain ⟨blocks, e⟩ := h.trace
    exact ⟨_, e, responses_encrypts blocks⟩
  identity _ := h.sameIdentity
  generatorLayer _ := h.resPort
  answers := .inl h.resPort
  initBuffer hi' := absurd (hi'.symm.trans hi) nofun
  closeGenerator e := absurd e hcl

/-- An adapter command works on the lookahead before or after its one answered request. -/
theorem BeforeResponse.of_request {i : Instr} {s v u : State} {request : PortEvent} {a : ResAnswer} {rest : List ResAnswer}
    (before : LookaheadStep s v) (outsideBefore : SameOutsideBuffer s v) (hp : v.resPort = a :: rest)
    (after : LookaheadStep (v.asked request rest) u) (outsideAfter : SameOutsideBuffer (v.asked request rest) u)
    (hreq : responses [request] = []) (hi : isInit i = false) (huse : usesResource i = true)
    (hcl : i = .close → SameGenerator s u) : BeforeResponse i s u where
  host := ⟨after.cfg.trans before.cfg, after.cmdPort.trans before.cmdPort, after.resetLine.trans before.resetLine,
    after.resets.trans before.resets⟩
  outside x hx := by
    have hx' : capacity (v.asked request rest).cfg ≤ x := le_of_eq_of_le (congrArg capacity before.cfg) hx
    exact (outsideAfter x hx').trans (outsideBefore x hx)
  trace := by
    obtain ⟨bs, hb⟩ := before.trace
    obtain ⟨cs, hc⟩ := after.trace
    refine ⟨bs.map PortEvent.cipherEncrypt ++ [request] ++ cs.map PortEvent.cipherEncrypt, ?_, ?_⟩
    · rw [hc, State.asked, hb]
      simp only [List.append_assoc]
    · rw [responses_append, responses_append, responses_encrypts, hreq, responses_encrypts]
      rfl
  identity _ := ⟨after.constructed.trans before.constructed, after.key.trans before.key, after.iv.trans before.iv⟩
  generatorLayer hno := absurd (huse.symm.trans hno) nofun
  answers := .inr ⟨a, by rw [after.resPort, ← before.resPort, hp]; rfl⟩
  initBuffer hi' := absurd (hi'.symm.trans hi) nofun
  closeGenerator := hcl

/-! ### The response of a command -/

/-- The response is one the command may give (R85, R86). -/
structure ResponseFits (i : Instr) (r : Response) : Prop where
  status : r.status ∈ allowedStatuses i
  output : i.wf = true → carriesOutput i r.status = true → r.payload.length = r.value.toNat
  noOutput : carriesOutput i r.status = false → r.payload = []

/-- A response without output bytes. -/
theorem ResponseFits.bare {i : Instr} {status : Status} (rstat : BitVec 32) (value : BitVec 64)
    (hs : status ∈ allowedStatuses i) (hno : carriesOutput i status = false) :
    ResponseFits i ⟨status, rstat, value, []⟩ :=
  ⟨hs, fun _ hyes => absurd (hyes.symm.trans hno) nofun, fun _ => rfl⟩

/-- A response with output bytes carries their number (R85). -/
theorem ResponseFits.counted {i : Instr} {status : Status} {out : List Byte} {n : Nat} (rstat : BitVec 32)
    (hs : status ∈ allowedStatuses i) (hyes : carriesOutput i status = true) (hout : out.length = n)
    (hn : i.wf = true → n < 2 ^ 64) : ResponseFits i ⟨status, rstat, countField n, out⟩ where
  status := hs
  output hwf _ := by
    show out.length = (countField n).toNat
    rw [hout, countField, BitVec.toNat_ofNat, Nat.mod_eq_of_lt (hn hwf)]
  noOutput hno := absurd (hyes.symm.trans hno) nofun

theorem resourceStatus_cases (rstat : BitVec 32) : resourceStatus rstat = .ok ∨ resourceStatus rstat = .resource := by
  unfold resourceStatus
  split
  · exact .inl rfl
  · exact .inr rfl

/-- From `s` the command did its work and then gave one fitting response. -/
def Answers (i : Instr) (s t : State) : Prop :=
  ∃ u r, BeforeResponse i s u ∧ ResponseFits i r ∧ t = u.emit (.response r)

theorem Answers.raised {i : Instr} {status : Status} (s : State) (hs : status ∈ allowedStatuses i)
    (hno : carriesOutput i status = false) : Answers i s (s.raise status) :=
  ⟨s, _, .refl i s, .bare 0 0 hs hno, rfl⟩

/-! ### The commands -/

theorem runInit_answers (key iv : List Byte) (s : State) : Answers (.init key iv) s (runInit key iv s) := by
  obtain ⟨-, e⟩ | ⟨-, -, e⟩ | ⟨-, -, -, e⟩ | ⟨-, -, -, e⟩ := runInit_cases key iv s <;> rw [e]
  · exact .raised s (by simp [allowedStatuses]) rfl
  · exact .raised s (by simp [allowedStatuses]) rfl
  · exact .raised s (by simp [allowedStatuses]) rfl
  · refine ⟨_, _, ?_, .bare 0 0 (by simp [allowedStatuses]) rfl, rfl⟩
    exact {
      host := ⟨rfl, rfl, rfl, rfl⟩
      outside := fun _ _ => rfl
      trace := ⟨[.cipherKeyLoad key], rfl, rfl⟩
      identity := nofun
      generatorLayer := fun _ => rfl
      answers := .inl rfl
      initBuffer := fun _ => rfl
      closeGenerator := nofun }

section
variable {E : Cipher} {s t : State}

theorem runApply_answers {data : List Byte} (h : runApply E data s = .next t) : Answers (.apply data) s t := by
  obtain ⟨-, rfl⟩ | ⟨-, dst, u, hcore, rfl⟩ := runApply_next h
  · exact .raised s (by simp [allowedStatuses]) rfl
  · obtain ⟨hlen, -⟩ := applyLoop_drains _ _ _ _ _ le_rfl hcore
    exact ⟨u, _, (applyCore_lookahead hcore).beforeResponse (applyCore_outside hcore) rfl nofun,
      .counted 0 (by simp [allowedStatuses]) rfl hlen of_decide_eq_true, rfl⟩

theorem runSeekto_answers (offset : BitVec 64) : Answers (.seekto offset) s (runSeekto E offset s) := by
  obtain ⟨-, e⟩ | ⟨-, -, e⟩ | ⟨-, -, e⟩ := runSeekto_cases E offset s <;> rw [e]
  · exact .raised s (by simp [allowedStatuses]) rfl
  · exact .raised s (by simp [allowedStatuses]) rfl
  · exact ⟨_, _, (seekCore_lookahead E _ s).beforeResponse (seekCore_outside E _ s) rfl nofun,
      .bare 0 offset (by simp [allowedStatuses]) rfl, rfl⟩

theorem runRd_answers {len : BitVec 64} (h : runRd E len s = .next t) : Answers (.rd len) s t := by
  obtain ⟨-, rfl⟩ | ⟨-, d, rstat, rest, out, u, hp, hd, hcore, rfl⟩ := runRd_next h
  · exact .raised s (by simp [allowedStatuses]) rfl
  · obtain ⟨hlen, -⟩ := applyLoop_drains _ _ _ _ _ le_rfl hcore
    refine ⟨u, _, .of_request (.refl s) (fun _ _ => rfl) hp (applyCore_lookahead hcore) (applyCore_outside hcore) rfl rfl
      rfl nofun, .counted rstat ?_ ?_ hlen (fun _ => hd.trans_lt len.isLt), rfl⟩
    · obtain e | e := resourceStatus_cases rstat <;> simp [e, allowedStatuses]
    · obtain e | e := resourceStatus_cases rstat <;> rw [e] <;> rfl

theorem runWr_answers {data : List Byte} (h : runWr E data s = .next t) : Answers (.wr data) s t := by
  obtain ⟨-, rfl⟩ | ⟨-, scratch, u, m, rstat, rest, hcore, hp, -, rfl⟩ := runWr_next h
  · exact .raised s (by simp [allowedStatuses]) rfl
  · refine ⟨_, _, .of_request (applyCore_lookahead hcore) (applyCore_outside hcore) hp (.refl _) (fun _ _ => rfl)
      (request := .resWrite scratch) rfl rfl rfl nofun, .bare rstat (countField m) ?_ rfl, rfl⟩
    obtain e | e := resourceStatus_cases rstat <;> simp [e, allowedStatuses]

/-- The three SEEK forms are alike in everything these claims ask of a command. -/
theorem seekInstr_kind (whence : Whence) (offset : BitVec 64) :
    isInit (seekInstr whence offset) = false ∧ usesResource (seekInstr whence offset) = true ∧
    seekInstr whence offset ≠ .close ∧ (∀ status, carriesOutput (seekInstr whence offset) status = false) ∧
    allowedStatuses (seekInstr whence offset) = [.ok, .resource, .unsupported, .errNotConstructed, .errNegOffset] := by
  cases whence <;> exact ⟨rfl, rfl, nofun, fun _ => rfl, rfl⟩

theorem runSeek_answers {offset : BitVec 64} {whence : Whence} (h : runSeek E offset whence s = .next t) :
    Answers (seekInstr whence offset) s t := by
  obtain ⟨hi, huse, hcl, hno, hall⟩ := seekInstr_kind whence offset
  obtain ⟨-, rfl⟩ | ⟨-, -, rfl⟩ | ⟨-, -, a, rstat, rest, hp, hcase⟩ := runSeek_next h
  · exact .raised s (by simp [hall]) (hno _)
  · exact .raised s (by simp [hall]) (hno _)
  · have hrequest {u : State} (hstep : LookaheadStep (s.asked (.resSeek offset whence) rest) u)
        (hout : SameOutsideBuffer (s.asked (.resSeek offset whence) rest) u) : BeforeResponse (seekInstr whence offset) s u :=
      .of_request (.refl s) (fun _ _ => rfl) hp hstep hout rfl hi huse fun e => absurd e hcl
    obtain ⟨-, rfl⟩ | ⟨-, -, rfl⟩ | ⟨-, -, rfl⟩ := hcase
    · exact ⟨_, _, hrequest (.refl _) fun _ _ => rfl, .bare rstat a (by simp [hall]) (hno _), rfl⟩
    · exact ⟨_, _, hrequest (.refl _) fun _ _ => rfl, .bare 0 0 (by simp [hall]) (hno _), rfl⟩
    · exact ⟨_, _, hrequest (seekCore_lookahead E _ _) (seekCore_outside E _ _), .bare 0 a (by simp [hall]) (hno _), rfl⟩

theorem runClose_answers (h : runClose s = .next t) : Answers .close s t := by
  obtain ⟨-, rfl⟩ | ⟨-, -, rfl⟩ | ⟨-, -, rstat, rest, hp, rfl⟩ := runClose_next h
  · exact .raised s (by simp [allowedStatuses]) rfl
  · exact .raised s (by simp [allowedStatuses]) rfl
  · refine ⟨_, _, .of_request (.refl s) (fun _ _ => rfl) hp (.refl _) (fun _ _ => rfl) (request := .resClose) rfl rfl rfl
      (fun _ => ⟨⟨rfl, rfl, rfl⟩, rfl, rfl, rfl, rfl, rfl⟩), .bare rstat 0 ?_ rfl, rfl⟩
    obtain e | e := resourceStatus_cases rstat <;> simp [e, allowedStatuses]

end

theorem exec_answers {i : Instr} {s t : State} (h : exec i s = .next t) : Answers i s t := by
  cases i with
  | init key iv => cases h; exact runInit_answers key iv s
  | apply data => exact runApply_answers h
  | seekto offset => cases h; exact runSeekto_answers offset
  | rd len => exact runRd_answers h
  | wr data => exact runWr_answers h
  | seekStart offset => exact runSeek_answers (whence := .start) h
  | seekCur offset => exact runSeek_answers (whence := .cur) h
  | seekEnd offset => exact runSeek_answers (whence := .fromEnd) h
  | close => exact runClose_answers h

/-! ### The statements -/

/-- Settles O19: the response is seen in the trace only, so the frame is that of the work before it. -/
theorem commandFrames : Obligations.CommandFrames := by
  intro i s t h
  obtain ⟨u, r, hu, -, rfl⟩ := exec_answers h
  obtain ⟨events, htrace, -⟩ := hu.trace
  exact ⟨hu.host, hu.outside, ⟨events ++ [.response r], by rw [emit_trace, htrace, List.append_assoc]⟩, hu.identity,
    hu.generatorLayer, hu.answers, hu.initBuffer, hu.closeGenerator⟩

/-- Settles O20: no event of the work before it is a response. -/
theorem oneResponsePerCommand : Obligations.OneResponsePerCommand := by
  intro i s t hwf h
  obtain ⟨u, r, hu, hr, rfl⟩ := exec_answers h
  obtain ⟨events, htrace, hnone⟩ := hu.trace
  exact ⟨events, r, by rw [emit_trace, htrace], hnone, hr.output hwf, hr.noOutput⟩

/-- Settles O21: the last response is the command's own. -/
theorem statusesEachCommandCanGive : Obligations.StatusesEachCommandCanGive := by
  intro i s t r h hlast
  obtain ⟨u, r', -, hr, rfl⟩ := exec_answers h
  have hown : lastResponse (u.emit (.response r')) = some r' := by simp [lastResponse, responses, PortEvent.response?]
  cases hown.symm.trans hlast
  exact hr.status

/-- Settles O15: reset keeps the static parameters, and so does the frame of every command. -/
theorem staticParametersNeverChange : Obligations.StaticParametersNeverChange := by
  intro s t h
  obtain ⟨-, e⟩ | ⟨-, -, e⟩ | ⟨-, _, rest, -, e⟩ | ⟨-, i, rest, -, e⟩ := step_cases s
  · cases e.symm.trans h; rfl
  · cases e.symm.trans h; rfl
  · cases e.symm.trans h; rfl
  · obtain ⟨⟨hcfg, -⟩, -⟩ := commandFrames i _ t (e.symm.trans h)
    exact hcfg

/-- R215: a command other than INIT leaves the lifecycle bit; INIT only ever sets it, and only with legal operands. -/
theorem exec_lifecycle {i : Instr} {s t : State} (h : exec i s = .next t) :
    t.constructed = s.constructed ∨ (t.constructed = true ∧
      ∃ key iv, i = .init key iv ∧ key.length ∈ s.cfg.keyLens ∧ iv.length = s.cfg.blockBytes) := by
  cases hi : isInit i with
  | false =>
    obtain ⟨-, -, -, hid, -⟩ := commandFrames i s t h
    obtain ⟨hcons, -⟩ := hid hi
    exact .inl hcons
  | true =>
    cases i with
    | init key iv =>
      cases h
      obtain ⟨-, e⟩ | ⟨-, -, e⟩ | ⟨-, -, -, e⟩ | ⟨-, hk, hv, e⟩ := runInit_cases key iv s <;> rw [e]
      · exact .inl rfl
      · exact .inl rfl
      · exact .inl rfl
      · exact .inr ⟨rfl, key, iv, rfl, hk, hv⟩
    | _ => cases hi

/-- Settles O13: of what a step can do only reset and INIT write the lifecycle bit. -/
theorem lifecycleEdges : Obligations.LifecycleEdges := by
  intro s t h
  have hno {b : Bool} (hs : s.constructed = b) (ht : t.constructed = !b) (hkeep : t.constructed = s.constructed) : False := by
    simp [hkeep, hs] at ht
  obtain ⟨hr, e⟩ | ⟨-, -, e⟩ | ⟨-, _, rest, -, e⟩ | ⟨-, i, rest, hd, e⟩ := step_cases s
  · cases e.symm.trans h
    exact ⟨fun _ _ => hr, nofun⟩
  · cases e.symm.trans h
    exact ⟨fun hs ht => (hno hs ht rfl).elim, fun hs ht => (hno hs ht rfl).elim⟩
  · cases e.symm.trans h
    exact ⟨fun hs ht => (hno hs ht rfl).elim, fun hs ht => (hno hs ht rfl).elim⟩
  · obtain hkeep | ⟨hset, key, iv, rfl, hk, hv⟩ := exec_lifecycle (e.symm.trans h)
    · exact ⟨fun hs ht => (hno hs ht hkeep).elim, fun hs ht => (hno hs ht hkeep).elim⟩
    · exact ⟨fun _ ht => absurd (hset.symm.trans ht) nofun, fun _ _ => ⟨key, iv, rest, hd, hk, hv⟩⟩

end Sys2Proof.Machine
end

section
/-! PROOFS. The step on its ports and reset (20_memory R56, 60 R211, 70 R230), INIT (41 R130 to R132) and the refusal of
SEEKTO (41 R137). -/

namespace Sys2Proof.Machine

/-! ### The step -/

/-- Settles O8: without reset a step is decided by what stands on the command port. -/
theorem stepRunsDecodedCommand : Obligations.StepRunsDecodedCommand := by
  intro s i rest hr hd _
  have hfetch : fetch s = .command i rest := hd
  simp [step, hr, hfetch, State.withPort]

/-- Settles O10: an incomplete command is one of the two waiting cases of the step. -/
theorem incompleteCommandWaits : Obligations.IncompleteCommandWaits := by
  rintro s hr (hd | hd)
  · have hfetch : fetch s = .noHeader := hd
    simp [step, hr, hfetch]
  · have hfetch : fetch s = .noPayload := hd
    simp [step, hr, hfetch]

@[simp] theorem length_freeBlock (cfg : Params) (byteAt : Nat → Byte) :
    (freeBlock cfg byteAt).length = cfg.blockBytes := by
  simp [freeBlock]

/-- Settles O11: the fields of the reset state; its blocks have `B` free bytes. -/
theorem resetStateIsUnconstructed : Obligations.ResetStateIsUnconstructed :=
  ⟨rfl, rfl, rfl, length_freeBlock .., length_freeBlock .., fun _ => rfl, rfl, rfl, rfl⟩

/-- Settles O12: a step under reset is `takeReset`, whatever stands on the command port. -/
theorem resetStepUnconstructs : Obligations.ResetStepUnconstructs := by
  intro s hr
  have hstep : step s = .next (takeReset s) := by simp [step, hr]
  exact ⟨takeReset s, hstep, rfl, rfl, rfl, length_freeBlock .., length_freeBlock .., rfl, rfl, rfl, rfl, rfl, rfl⟩

/-! ### INIT and SEEKTO -/

/-- Settles O27: of INIT's four cases only success has these operands; its two events are seen in turn. -/
theorem initConstructs : Obligations.InitConstructs := by
  intro s key iv hc hk hv
  obtain ⟨hc', -⟩ | ⟨-, hk', -⟩ | ⟨-, -, hv', -⟩ | ⟨-, -, -, hrun⟩ := runInit_cases key iv s
  · simp [hc] at hc'
  · exact absurd hk hk'
  · exact absurd hv hv'
  · refine congrArg Host.Outcome.next (hrun.trans ?_)
    simp [State.respond, State.emit]

/-- Settles O28: the checks in the order of R131. -/
theorem initRefusals : Obligations.InitRefusals := by
  refine fun s key iv => ⟨fun hc => ?_, fun hc hk => ?_, fun hc hk hv => ?_⟩
  · exact congrArg Host.Outcome.next (if_pos hc : runInit key iv s = s.raise .errAlreadyConstructed)
  · have hrun : runInit key iv s = s.raise .errInvalidKeyLength := by simp [runInit, keyAccepted, hc, hk]
    exact congrArg Host.Outcome.next hrun
  · have hrun : runInit key iv s = s.raise .errInvalidIvLength := by simp [runInit, keyAccepted, hc, hk, hv]
    exact congrArg Host.Outcome.next hrun

/-- Settles O14: a command other than INIT is refused before it reads a register, and INIT writes all of them but the
buffer's memory. -/
theorem unconstructedRegistersUnobservable : Obligations.UnconstructedRegistersUnobservable := by
  intro i s t key iv ctr buf pos hc h
  cases hi : isInit i with
  | false =>
    cases (exec_of_unconstructed hi hc).symm.trans h
    exact ⟨_, exec_of_unconstructed hi hc, rfl, rfl, fun ht => absurd (hc.symm.trans ht) nofun⟩
  | true =>
    cases i with
    | init key' iv' =>
      cases h
      refine ⟨_, rfl, ?_⟩
      simp only [runInit, hc, Bool.false_eq_true, if_false]
      split_ifs
      · exact ⟨rfl, hc.symm, fun ht => absurd (hc.symm.trans ht) nofun⟩
      · exact ⟨rfl, hc.symm, fun ht => absurd (hc.symm.trans ht) nofun⟩
      · exact ⟨rfl, rfl, fun _ => rfl⟩
    | _ => cases hi

/-- Settles O37: the sign is looked at before the generator is touched. -/
theorem seektoRefusesNegative : Obligations.SeektoRefusesNegative := by
  intro s offset hc hn
  have hrun : runSeekto Config.encryptByte offset s = s.raise .errNegOffset := by
    simp [runSeekto, hc, negativeOffset_eq_true.2 hn]
  exact congrArg Host.Outcome.next hrun

end Sys2Proof.Machine
end

section
/-! PROOFS. RD, WR and CLOSE where the resource answers (42_adapter_commands R150 to R154, R159, R160), and where its answer is
no move of the resource (20_memory R55, log 7). -/

namespace Sys2Proof.Machine

/-! ### What an answered command does -/

section
variable {E : Cipher} {s u : State} {rstat : BitVec 32} {rest : List ResAnswer}

/-- R150: RD combines what the resource returned, from the state after the request. -/
theorem runRd_of_core {len : BitVec 64} {d out : List Byte} (hc : s.constructed = true)
    (hp : s.resPort = .read d rstat :: rest) (hd : d.length ≤ len.toNat)
    (hcore : applyCore E d (s.asked (.resRead len) rest) = .ok (out, u)) :
    runRd E len s = .next (u.respond (resourceStatus rstat) rstat (countField d.length) out) := by
  have hask : resRead len s = .ok ((d, rstat), s.asked (.resRead len) rest) := resRead_of_answer hp hd
  simp [runRd, hc, hask, hcore]

/-- R153: WR asks the resource from the state its encryption left. -/
theorem runWr_of_core {data scratch : List Byte} {m : Nat} (hc : s.constructed = true)
    (hcore : applyCore E data s = .ok (scratch, u)) (hp : u.resPort = .write m rstat :: rest) (hm : m ≤ scratch.length) :
    runWr E data s =
      .next ((u.asked (.resWrite scratch) rest).respond (resourceStatus rstat) rstat (countField m) []) := by
  simp [runWr, hc, hcore, resWrite_of_answer hp hm, State.asked]

/-- R159: CLOSE hands the resource's status on. -/
theorem runClose_of_answer (hc : s.constructed = true) (hcan : s.cfg.resCanClose = true)
    (hp : s.resPort = .close rstat :: rest) :
    runClose s = .next ((s.asked .resClose rest).respond (resourceStatus rstat) rstat 0 []) := by
  simp [runClose, hc, hcan, resClose_of_answer hp, State.asked]

/-- R160: the capability is asked before the resource is. -/
theorem runClose_of_cannotClose (hc : s.constructed = true) (hcan : s.cfg.resCanClose = false) :
    runClose s = .next s.unsupported := by
  simp [runClose, hc, hcan]

end

/-- Settles O39: APPLY_core's law on the bytes that came, from the state in which the request has been seen. -/
theorem rdDecryptsWhatCame : Obligations.RdDecryptsWhatCame := by
  intro s len d rstat rest hinv hc hp hd
  obtain ⟨u, hcore, hpos, hu, -⟩ := applyCore_of_inv (hinv.asked (.resRead len) rest) hc d
  have hstep := applyCore_lookahead hcore
  have houtside := applyCore_outside hcore
  obtain ⟨blocks, htrace⟩ := hstep.trace
  exact ⟨_, blocks, runRd_of_core hc hp hd hcore, by rw [respond_trace, htrace]; rfl, hpos, hstep.resPort,
    hstep.sameHost, hstep.sameIdentity, houtside, hu.respond ..⟩

/-- Settles O41: APPLY_core's law on all the data, then the request, from the state it leaves. -/
theorem wrEncryptsThenWrites : Obligations.WrEncryptsThenWrites := by
  intro s data m rstat rest hinv hc hp hm
  obtain ⟨u, hcore, hpos, hu, -⟩ := applyCore_of_inv hinv hc data
  have hstep := applyCore_lookahead hcore
  have houtside := applyCore_outside hcore
  obtain ⟨blocks, htrace⟩ := hstep.trace
  have hrun := runWr_of_core hc hcore (hstep.resPort.trans hp) (by rwa [length_streamXor])
  refine ⟨_, blocks, hrun, ?_, hpos, rfl, hstep.sameHost, hstep.sameIdentity, houtside, (hu.asked _ rest).respond ..⟩
  rw [respond_trace, State.asked, htrace, List.append_assoc _ [_] [_]]
  rfl

/-- Settles O40: with no bytes APPLY_core makes no turn. -/
theorem rdOfNothingLeavesGenerator : Obligations.RdOfNothingLeavesGenerator := by
  intro s len rstat rest hc hp
  have hrun := runRd_of_core (len := len) hc hp (Nat.zero_le _) (applyCore_nil Config.encryptByte _)
  rw [State.asked, respond_of_answered] at hrun
  exact hrun

/-- Settles O45: the request, the answer and the response are all that CLOSE adds. -/
theorem closeForwards : Obligations.CloseForwards := by
  intro s rstat rest hc hcan hp
  have hrun := runClose_of_answer hc hcan hp
  rw [State.asked, respond_of_answered] at hrun
  exact hrun

/-- Settles O46: CLOSE stops at the capability. -/
theorem closeUnsupportedDoesNothing : Obligations.CloseUnsupportedDoesNothing :=
  fun _ hc hcan => runClose_of_cannotClose hc hcan

/-! ### Answers outside the contract -/

section
variable {E : Cipher} {s : State} {answer : ResAnswer} {rest : List ResAnswer}

theorem runRd_of_unadmitted {len : BitVec 64} (hc : s.constructed = true) (hp : s.resPort = answer :: rest)
    (ha : readAnswer len answer = none) :
    runRd E len s = .refused (.resourceOutsideContract (s.trace ++ [.resRead len])) := by
  have hask : resRead len s = _ := askResource_of_unadmitted hp ha
  simp [runRd, hc, hask, Stop.outcome]

theorem runWr_of_unadmitted {data scratch : List Byte} {u : State} (hc : s.constructed = true)
    (hcore : applyCore E data s = .ok (scratch, u)) (hp : u.resPort = answer :: rest)
    (ha : writeAnswer scratch answer = none) :
    runWr E data s = .refused (.resourceOutsideContract (u.trace ++ [.resWrite scratch])) := by
  have hask : resWrite scratch u = _ := askResource_of_unadmitted hp ha
  simp [runWr, hc, hcore, hask, Stop.outcome]

theorem runSeek_of_unadmitted {offset : BitVec 64} {whence : Whence} (hc : s.constructed = true)
    (hcan : s.cfg.resCanSeek = true) (hp : s.resPort = answer :: rest) (ha : seekAnswer answer = none) :
    runSeek E offset whence s = .refused (.resourceOutsideContract (s.trace ++ [.resSeek offset whence])) := by
  have hask : resSeek offset whence s = _ := askResource_of_unadmitted hp ha
  simp [runSeek, hc, hcan, hask, Stop.outcome]

theorem runClose_of_unadmitted (hc : s.constructed = true) (hcan : s.cfg.resCanClose = true)
    (hp : s.resPort = answer :: rest) (ha : closeAnswer answer = none) :
    runClose s = .refused (.resourceOutsideContract (s.trace ++ [.resClose])) := by
  have hask : resClose s = _ := askResource_of_unadmitted hp ha
  simp [runClose, hc, hcan, hask, Stop.outcome]

end

/-- Settles O48: an answer a request admits would be one of its own kind and within its bound. -/
theorem answersOutsideContractRefused : Obligations.AnswersOutsideContractRefused := by
  intro s answer rest hc hp
  refine ⟨fun len hno => runRd_of_unadmitted hc hp ?_, fun data hinv hno => ?_, fun whence offset hcan hno => ?_,
    fun hcan hno => runClose_of_unadmitted hc hcan hp ?_⟩
  · refine Option.eq_none_iff_forall_ne_some.2 fun ⟨d, rstat⟩ ha => ?_
    obtain ⟨rfl, hd⟩ := readAnswer_some.1 ha
    exact absurd (hno d rstat rfl) (not_lt.2 hd)
  · obtain ⟨u, hcore, -⟩ := applyCore_of_inv hinv hc data
    have hstep := applyCore_lookahead hcore
    obtain ⟨blocks, htrace⟩ := hstep.trace
    refine ⟨blocks, htrace ▸ runWr_of_unadmitted hc hcore (hstep.resPort.trans hp) ?_⟩
    refine Option.eq_none_iff_forall_ne_some.2 fun ⟨m, rstat⟩ ha => ?_
    obtain ⟨rfl, hm⟩ := writeAnswer_some.1 ha
    rw [length_streamXor] at hm
    exact absurd (hno m rstat rfl) (not_lt.2 hm)
  · rw [exec_seekInstr]
    exact runSeek_of_unadmitted hc hcan hp
      (Option.eq_none_iff_forall_ne_some.2 fun ⟨a, rstat⟩ ha => hno a rstat (seekAnswer_some.1 ha))
  · exact Option.eq_none_iff_forall_ne_some.2 fun rstat ha => hno rstat (closeAnswer_some.1 ha)

end Sys2Proof.Machine
end

section
/-! PROOFS. What no command reads (10_state R24, R29; 60_exceptions R213): the ghost position, what was observed before, and the
buffer bytes outside `buf[cur..len)`. One simulation for all three: two states that differ only there are taken by every command
to two that differ only there. -/

namespace Sys2Proof.Machine

/-! ### The simulation relation -/

/-- How two states may differ in the ghost, in the trace and in the buffer's memory (for a given `len` and `cur`), such that the
difference outlives every operation and no operation reads it. -/
structure Unread where
  pos : Nat → Nat → Prop
  pos_same : ∀ n, pos n n
  pos_add : ∀ {p q : Nat} (n : Nat), pos p q → pos (p + n) (q + n)
  seen : List PortEvent → List PortEvent → Prop
  seen_append : ∀ {xs ys : List PortEvent} (zs : List PortEvent), seen xs ys → seen (xs ++ zs) (ys ++ zs)
  buf : Nat → Nat → Memory → Memory → Prop
  buf_read : ∀ {len cur : Nat} {m m' : Memory} {a : Nat}, buf len cur m m' → cur ≤ a → a < len →
    Memory.lookup m' a = Memory.lookup m a
  buf_shift : ∀ {len cur : Nat} {m m' : Memory}, buf len cur m m' →
    buf (len - cur) 0 (Memory.copyUp m 0 cur (len - cur)) (Memory.copyUp m' 0 cur (len - cur))
  buf_store : ∀ {len cur : Nat} {m m' : Memory} (bs : List Byte), buf len cur m m' →
    buf (len + bs.length) cur (Memory.writeBytes m len bs) (Memory.writeBytes m' len bs)
  buf_consume : ∀ {len cur : Nat} {m m' : Memory} (n : Nat), buf len cur m m' → buf len (cur + n) m m'
  buf_empty : ∀ {len cur : Nat} {m m' : Memory}, buf len cur m m' → buf 0 0 m m'

/-- The state with another memory, ghost position and trace. -/
def State.vary (s : State) (m : Memory) (p : Nat) (tr : List PortEvent) : State :=
  { s with buf := m, pos := p, trace := tr }

/-- Two states that differ at most in what is unread. -/
inductive Similar (U : Unread) (s : State) : State → Prop
  | intro {m : Memory} {p : Nat} {tr : List PortEvent} (hbuf : U.buf s.len s.cur s.buf m) (hpos : U.pos s.pos p)
      (hseen : U.seen s.trace tr) : Similar U s (s.vary m p tr)

section
variable {U : Unread} {E : Cipher} {s t u : State}

/-! ### The operations -/

theorem Similar.asked (h : Similar U s t) (request : PortEvent) (rest : List ResAnswer) :
    Similar U (s.asked request rest) (t.asked request rest) := by
  obtain ⟨hbuf, hpos, hseen⟩ := h
  exact .intro (s := s.asked request rest) hbuf hpos (U.seen_append [request] hseen)

theorem Similar.respond (h : Similar U s t) (status : Status) (rstat : BitVec 32) (value : BitVec 64)
    (payload : List Byte) : Similar U (s.respond status rstat value payload) (t.respond status rstat value payload) := by
  obtain ⟨hbuf, hpos, hseen⟩ := h
  exact .intro (s := s.respond status rstat value payload) hbuf hpos (U.seen_append _ hseen)

theorem Similar.consume (h : Similar U s t) (n : Nat) : Similar U (s.consume n) (t.consume n) := by
  obtain ⟨hbuf, hpos, hseen⟩ := h
  exact .intro (s := s.consume n) (U.buf_consume n hbuf) (U.pos_add n hpos) hseen

theorem Similar.refillShift (h : Similar U s t) : Similar U (refillShift s) (refillShift t) := by
  obtain ⟨hbuf, hpos, hseen⟩ := h
  exact .intro (s := Machine.refillShift s) (U.buf_shift hbuf) hpos hseen

theorem Similar.refillBlock (h : Similar U s t) : Similar U (refillBlock E s) (refillBlock E t) := by
  obtain ⟨hbuf, hpos, hseen⟩ := h
  have hstore := U.buf_store (encryptBlock E s.cfg s.key s.ctr) hbuf
  rw [length_encryptBlock] at hstore
  exact .intro (s := Machine.refillBlock E s) hstore hpos (U.seen_append _ hseen)

theorem Similar.cfg_eq (h : Similar U s t) : t.cfg = s.cfg := by cases h; rfl
theorem Similar.len_eq (h : Similar U s t) : t.len = s.len := by cases h; rfl
theorem Similar.cur_eq (h : Similar U s t) : t.cur = s.cur := by cases h; rfl
theorem Similar.constructed_eq (h : Similar U s t) : t.constructed = s.constructed := by cases h; rfl
theorem Similar.resPort_eq (h : Similar U s t) : t.resPort = s.resPort := by cases h; rfl

theorem Similar.refillLoop : ∀ (turns : Nat) {s t : State}, Similar U s t →
    Similar U (refillLoop E turns s) (refillLoop E turns t)
  | 0, _, _, h => h
  | turns + 1, s, t, h => by
    unfold Machine.refillLoop
    rw [h.len_eq, h.cfg_eq]
    split
    · exact Similar.refillLoop turns h.refillBlock
    · exact h

theorem Similar.refill (h : Similar U s t) : Similar U (refill E s) (refill E t) := by
  unfold Machine.refill
  rw [h.cfg_eq]
  exact h.refillShift.refillLoop _

theorem Similar.refillIfLow (h : Similar U s t) : Similar U (refillIfLow E s) (refillIfLow E t) := by
  unfold Machine.refillIfLow
  rw [h.len_eq, h.cur_eq, h.cfg_eq]
  split
  · exact h.refill
  · exact h

/-- The bytes that an XORSTEP combines are unconsumed ones. -/
theorem Similar.xorBytes {src out : List Byte} (h : Similar U s t) (hl : src.length ≤ s.avail)
    (hx : xorBytes s s.cur src = .ok out) : xorBytes t t.cur src = .ok out := by
  obtain ⟨hlen, hbytes⟩ := xorBytes_ok.1 hx
  refine xorBytes_ok.2 ⟨hlen, fun i hi => ?_⟩
  obtain ⟨k, hk, hout⟩ := hbytes i hi
  obtain ⟨hcap, hlook⟩ := readBuf_ok.1 hk
  obtain ⟨hbuf, -, -⟩ := h
  have hin : s.cur + i < s.len := by rw [State.avail] at hl; omega
  exact ⟨k, readBuf_ok.2 ⟨hcap, (U.buf_read hbuf (Nat.le_add_right _ _) hin).trans hlook⟩, hout⟩

theorem Similar.xorStep {src out : List Byte} (h : Similar U s t) (hne : src ≠ [])
    (hx : xorStep E src.length src s = .ok (out, u)) :
    ∃ v, xorStep E src.length src t = .ok (out, v) ∧ Similar U u v := by
  have hsrc := List.length_pos_iff.2 hne
  obtain ⟨hempty, -, -⟩ | ⟨-, hlen, hbytes, rfl⟩ := xorStep_ok hx
  · omega
  · have hlow : Similar U (Machine.refillIfLow E s) (Machine.refillIfLow E t) := h.refillIfLow
    rw [Nat.min_self, ← State.avail] at hlen
    have hcount : out.length = min src.length (Machine.refillIfLow E t).avail := by
      rw [hlen, State.avail, State.avail, hlow.len_eq, hlow.cur_eq]
    have hbytes' := hlow.xorBytes ((List.length_take_le _ _).trans (by omega)) hbytes
    refine ⟨_, xorStep_of_xorBytes hne hcount hbytes', ?_⟩
    have hcons := hlow.consume out.length
    rw (occs := [1]) [State.consume, refillIfLow_pos] at hcons
    exact hcons

theorem Similar.applyLoop : ∀ (steps : Nat) {src out : List Byte} {s t u : State}, Similar U s t →
    applyLoop E steps src s = .ok (out, u) → ∃ v, applyLoop E steps src t = .ok (out, v) ∧ Similar U u v
  | 0, _, _, _, t, _, h, hx => by cases hx; exact ⟨t, rfl, h⟩
  | _ + 1, [], _, _, t, _, h, hx => by cases hx; exact ⟨t, rfl, h⟩
  | steps + 1, b :: bs, out, s, t, u, h, hx => by
    unfold Machine.applyLoop at hx
    split at hx
    · cases hx
    · rename_i out₁ s₁ h₁
      split at hx
      · cases hx
      · rename_i rest s₂ h₂
        cases hx
        obtain ⟨t₁, ht₁, hsim₁⟩ := h.xorStep (List.cons_ne_nil b bs) h₁
        obtain ⟨t₂, ht₂, hsim₂⟩ := Similar.applyLoop steps hsim₁ h₂
        exact ⟨t₂, by simp only [Machine.applyLoop, ht₁, ht₂], hsim₂⟩

theorem Similar.applyCore {src out : List Byte} (h : Similar U s t) (hx : applyCore E src s = .ok (out, u)) :
    ∃ v, applyCore E src t = .ok (out, v) ∧ Similar U u v := h.applyLoop _ hx

theorem Similar.seekCore (h : Similar U s t) (o : Nat) : Similar U (seekCore E o s) (seekCore E o t) := by
  have hat (j : Nat) : Similar U (s.atBlock j) (t.atBlock j) := by
    obtain ⟨hbuf, -, hseen⟩ := h
    exact .intro (s := s.atBlock j) (U.buf_empty hbuf) (U.pos_same _) hseen
  rw [seekCore_eq, seekCore_eq, h.cfg_eq]
  exact (hat _).refill.consume _

/-! ### The commands -/

theorem Similar.runInit (h : Similar U s t) (key iv : List Byte) : Similar U (runInit key iv s) (runInit key iv t) := by
  simp only [Machine.runInit, h.constructed_eq, h.cfg_eq]
  split_ifs
  · exact h.respond ..
  · exact h.respond ..
  · exact h.respond ..
  · obtain ⟨hbuf, -, hseen⟩ := h
    exact Similar.respond (.intro (U.buf_empty hbuf) (U.pos_same 0) (U.seen_append [.cipherKeyLoad key] hseen)) ..

theorem Similar.runApply {data : List Byte} (h : Similar U s t) (hrun : runApply E data s = .next u) :
    ∃ v, runApply E data t = .next v ∧ Similar U u v := by
  obtain ⟨hc, rfl⟩ | ⟨hc, out, w, hcore, rfl⟩ := runApply_next hrun
  · exact ⟨_, if_pos (h.constructed_eq.trans hc), h.respond ..⟩
  · obtain ⟨v, hv, hsim⟩ := h.applyCore hcore
    exact ⟨_, runApply_of_core (h.constructed_eq.trans hc) hv, hsim.respond ..⟩

theorem Similar.runSeekto (h : Similar U s t) (offset : BitVec 64) :
    Similar U (runSeekto E offset s) (runSeekto E offset t) := by
  simp only [Machine.runSeekto, h.constructed_eq]
  split_ifs
  · exact h.respond ..
  · exact h.respond ..
  · exact (h.seekCore _).respond ..

theorem Similar.runRd {len : BitVec 64} (h : Similar U s t) (hrun : runRd E len s = .next u) :
    ∃ v, runRd E len t = .next v ∧ Similar U u v := by
  obtain ⟨hc, rfl⟩ | ⟨hc, d, rstat, rest, out, w, hp, hd, hcore, rfl⟩ := runRd_next hrun
  · exact ⟨_, if_pos (h.constructed_eq.trans hc), h.respond ..⟩
  · obtain ⟨v, hv, hsim⟩ := (h.asked (.resRead len) rest).applyCore hcore
    exact ⟨_, runRd_of_core (h.constructed_eq.trans hc) (h.resPort_eq.trans hp) hd hv, hsim.respond ..⟩

theorem Similar.runWr {data : List Byte} (h : Similar U s t) (hrun : runWr E data s = .next u) :
    ∃ v, runWr E data t = .next v ∧ Similar U u v := by
  obtain ⟨hc, rfl⟩ | ⟨hc, scratch, w, m, rstat, rest, hcore, hp, hm, rfl⟩ := runWr_next hrun
  · exact ⟨_, if_pos (h.constructed_eq.trans hc), h.respond ..⟩
  · obtain ⟨v, hv, hsim⟩ := h.applyCore hcore
    exact ⟨_, runWr_of_core (h.constructed_eq.trans hc) hv (hsim.resPort_eq.trans hp) hm,
      (hsim.asked (.resWrite scratch) rest).respond ..⟩

theorem Similar.runSeek {offset : BitVec 64} {whence : Whence} (h : Similar U s t)
    (hrun : runSeek E offset whence s = .next u) : ∃ v, runSeek E offset whence t = .next v ∧ Similar U u v := by
  obtain ⟨hc, rfl⟩ | ⟨hc, hcan, rfl⟩ | ⟨hc, hcan, a, rstat, rest, hp, hcase⟩ := runSeek_next hrun
  · exact ⟨_, if_pos (h.constructed_eq.trans hc), h.respond ..⟩
  · exact ⟨_, runSeek_of_cannotSeek E offset whence (h.constructed_eq.trans hc) (h.cfg_eq ▸ hcan), h.respond ..⟩
  · have hc' := h.constructed_eq.trans hc
    have hcan' : t.cfg.resCanSeek = true := h.cfg_eq ▸ hcan
    have hp' := h.resPort_eq.trans hp
    have hasked := h.asked (.resSeek offset whence) rest
    obtain ⟨hr, rfl⟩ | ⟨rfl, hn, rfl⟩ | ⟨rfl, hn, rfl⟩ := hcase
    · exact ⟨_, runSeek_of_resourceError E offset whence hc' hcan' hp' hr, hasked.respond ..⟩
    · exact ⟨_, runSeek_of_negativePosition E offset whence hc' hcan' hp' hn, hasked.respond ..⟩
    · exact ⟨_, runSeek_of_legal E offset whence hc' hcan' hp' hn, (hasked.seekCore _).respond ..⟩

theorem Similar.runClose (h : Similar U s t) (hrun : runClose s = .next u) :
    ∃ v, runClose t = .next v ∧ Similar U u v := by
  obtain ⟨hc, rfl⟩ | ⟨hc, hcan, rfl⟩ | ⟨hc, hcan, rstat, rest, hp, rfl⟩ := runClose_next hrun
  · exact ⟨_, if_pos (h.constructed_eq.trans hc), h.respond ..⟩
  · exact ⟨_, runClose_of_cannotClose (h.constructed_eq.trans hc) (h.cfg_eq ▸ hcan), h.respond ..⟩
  · exact ⟨_, runClose_of_answer (h.constructed_eq.trans hc) (h.cfg_eq ▸ hcan) (h.resPort_eq.trans hp),
      (h.asked .resClose rest).respond ..⟩

/-- Every command takes two states that differ in what is unread only to two such states. -/
theorem Similar.exec {i : Instr} (h : Similar U s t) (hexec : exec i s = .next u) :
    ∃ v, exec i t = .next v ∧ Similar U u v := by
  cases i with
  | init key iv => cases hexec; exact ⟨_, rfl, h.runInit key iv⟩
  | apply data => exact h.runApply hexec
  | seekto offset => cases hexec; exact ⟨_, rfl, h.runSeekto offset⟩
  | rd len => exact h.runRd hexec
  | wr data => exact h.runWr hexec
  | seekStart offset => exact h.runSeek (whence := .start) hexec
  | seekCur offset => exact h.runSeek (whence := .cur) hexec
  | seekEnd offset => exact h.runSeek (whence := .fromEnd) hexec
  | close => exact h.runClose hexec

end

/-! ### The trace (60_exceptions R213) -/

/-- The same memory and ghost; the traces are two given ones with the same events added. -/
def Unread.observed (before before' : List PortEvent) : Unread where
  pos p q := p = q
  pos_same _ := rfl
  pos_add n h := congrArg (· + n) h
  seen xs ys := ∃ events, xs = before ++ events ∧ ys = before' ++ events
  seen_append zs := fun ⟨events, hx, hy⟩ =>
    ⟨events ++ zs, by rw [hx, List.append_assoc], by rw [hy, List.append_assoc]⟩
  buf _ _ m m' := m = m'
  buf_read h _ _ := by rw [h]
  buf_shift h := by rw [h]
  buf_store _ h := by rw [h]
  buf_consume _ h := h
  buf_empty h := h

/-- Settles O23: by the frame the command adds some events, and by the simulation the same ones to any other trace. -/
theorem nothingReadsTheTrace : Obligations.NothingReadsTheTrace := by
  intro i s t h
  obtain ⟨-, -, ⟨events, htrace⟩, -⟩ := commandFrames i s t h
  refine ⟨events, htrace, fun earlier => ?_⟩
  have hsim : Similar (Unread.observed s.trace earlier) s { s with trace := earlier } :=
    .intro (s := s) rfl rfl ⟨[], (List.append_nil _).symm, (List.append_nil _).symm⟩
  obtain ⟨v, hexec, hv⟩ := hsim.exec h
  obtain ⟨hbuf, hpos, events', ht, htr⟩ := hv
  cases List.append_cancel_left (htrace.symm.trans ht)
  subst hbuf hpos htr
  exact hexec

/-! ### The ghost (10_state R29) -/

/-- The same memory and trace; any two ghost positions. -/
def Unread.ghost : Unread where
  pos _ _ := True
  pos_same _ := trivial
  pos_add _ h := h
  seen xs ys := xs = ys
  seen_append zs h := congrArg (· ++ zs) h
  buf _ _ m m' := m = m'
  buf_read h _ _ := by rw [h]
  buf_shift h := by rw [h]
  buf_store _ h := by rw [h]
  buf_consume _ h := h
  buf_empty h := h

/-- Settles O24, by the simulation for states that differ in the ghost. -/
theorem nothingReadsTheGhost : Obligations.NothingReadsTheGhost := by
  intro i s t p h
  have hsim : Similar Unread.ghost s { s with pos := p } := .intro (s := s) rfl trivial rfl
  obtain ⟨v, hexec, hv⟩ := hsim.exec h
  obtain @⟨_, q, _, hbuf, -, hseen⟩ := hv
  subst hbuf hseen
  exact ⟨q, hexec⟩

/-! ### Stale buffer bytes (10_state R24) -/

/-- Two memories in canonical form with the same bytes at the indices `cur` to `len - 1`. -/
structure SameUnconsumed (len cur : Nat) (m m' : Memory) : Prop where
  canonical : Memory.wf m = true
  canonical' : Memory.wf m' = true
  same : ∀ a, cur ≤ a → a < len → Memory.lookup m' a = Memory.lookup m a

/-- REFILL's move to the start of the buffer (R114). -/
theorem lookup_copyUp_toStart {m : Memory} (hwf : Memory.wf m = true) {src n i : Nat} (hi : i < n) :
    Memory.lookup (Memory.copyUp m 0 src n) i = Memory.lookup m (src + i) := by
  have hmoved := lookup_copyUp_moved n m 0 src i hwf (Nat.zero_le src) hi
  rwa [Nat.zero_add] at hmoved

theorem SameUnconsumed.shift {len cur : Nat} {m m' : Memory} (h : SameUnconsumed len cur m m') :
    SameUnconsumed (len - cur) 0 (Memory.copyUp m 0 cur (len - cur)) (Memory.copyUp m' 0 cur (len - cur)) where
  canonical := wf_copyUp _ _ _ _ h.canonical
  canonical' := wf_copyUp _ _ _ _ h.canonical'
  same a _ ha := by
    rw [lookup_copyUp_toStart h.canonical ha, lookup_copyUp_toStart h.canonical' ha]
    exact h.same _ (Nat.le_add_right _ _) (by omega)

theorem SameUnconsumed.store {len cur : Nat} {m m' : Memory} (bs : List Byte) (h : SameUnconsumed len cur m m') :
    SameUnconsumed (len + bs.length) cur (Memory.writeBytes m len bs) (Memory.writeBytes m' len bs) where
  canonical := wf_writeBytes bs _ _ h.canonical
  canonical' := wf_writeBytes bs _ _ h.canonical'
  same a hcur ha := by
    rw [lookup_writeBytes, lookup_writeBytes]
    split
    · rfl
    · exact h.same a hcur (by omega)

/-- The same ghost and trace; two memories that differ in stale bytes. -/
def Unread.stale : Unread where
  pos p q := p = q
  pos_same _ := rfl
  pos_add n h := congrArg (· + n) h
  seen xs ys := xs = ys
  seen_append zs h := congrArg (· ++ zs) h
  buf := SameUnconsumed
  buf_read h hcur ha := h.same _ hcur ha
  buf_shift h := h.shift
  buf_store bs h := h.store bs
  buf_consume _ h := ⟨h.canonical, h.canonical', fun a hcur ha => h.same a (le_of_add_le_left hcur) ha⟩
  buf_empty h := ⟨h.canonical, h.canonical', fun a _ ha => absurd ha (Nat.not_lt_zero a)⟩

/-- Settles O25, by the simulation for states that differ in stale bytes. -/
theorem staleBytesNeverMatter : Obligations.StaleBytesNeverMatter := by
  intro i s t m hwf hwf' hsame h
  have hunconsumed (a : Nat) (hcur : s.cur ≤ a) (ha : a < s.len) : Memory.lookup m a = Memory.lookup s.buf a := by
    obtain ⟨j, rfl⟩ := Nat.exists_eq_add_of_le hcur
    exact hsame j (by rw [State.avail]; omega)
  have hsim : Similar Unread.stale s { s with buf := m } := .intro (s := s) ⟨hwf, hwf', hunconsumed⟩ rfl rfl
  obtain ⟨v, hexec, hv⟩ := hsim.exec h
  obtain @⟨m', _, _, hbuf, hpos, hseen⟩ := hv
  subst hpos hseen
  exact ⟨m', hexec, fun j hj => hbuf.same _ (Nat.le_add_right _ _) (by rw [State.avail] at hj; omega)⟩

end Sys2Proof.Machine
end

section
/-! PROOFS. Seeks (41 R136 to R138, 42 R156, 43_laws R180): what SEEKTO_core leaves, from any state whose IV has `B` bytes, and
what of it depends on the offset. -/

namespace Sys2Proof.Machine

/-! ### SEEKTO_core from any state -/

/-- R112: the counter of block `j` is the IV plus `j`. -/
theorem beadd_eq_counterBlock {cfg : Params} {iv : List Byte} (hl : iv.length = cfg.blockBytes) (j : Nat) :
    beadd iv j = counterBlock cfg iv j :=
  eq_counterBlock ((length_beadd iv j).trans hl) (by rw [be_beadd, hl, counterValues_eq])

/-- `t` is `s` in the middle of a seek to block `j`: the buffer holds the `k` blocks from there on and nothing else. -/
structure Regenerated (E : Cipher) (s : State) (j k : Nat) (t : State) : Prop where
  lookahead : LookaheadStep s t
  cur : t.cur = 0
  len : t.len = k * s.cfg.blockBytes
  fits : t.len ≤ capacity s.cfg
  ctr : t.ctr = counterBlock s.cfg s.iv (j + k)
  content : ∀ i, i < t.len → Memory.lookup t.buf i = some (s.ks E (j * s.cfg.blockBytes + i))
  above : ∀ a, t.len ≤ a → Memory.lookup t.buf a = Memory.lookup s.buf a
  trace : t.trace = s.trace ++ (List.range k).map fun n => .cipherEncrypt (counterBlock s.cfg s.iv (j + n))

theorem atBlock_regenerated (E : Cipher) {s : State} (hiv : s.iv.length = s.cfg.blockBytes) (j : Nat) :
    Regenerated E s j 0 (s.atBlock j) where
  lookahead := ⟨rfl, rfl, rfl, rfl, rfl, rfl, rfl, rfl, [], (List.append_nil _).symm⟩
  cur := rfl
  len := (Nat.zero_mul _).symm
  fits := Nat.zero_le _
  ctr := beadd_eq_counterBlock hiv j
  content i hi := absurd hi (Nat.not_lt_zero i)
  above _ _ := rfl
  trace := (List.append_nil _).symm

/-- A turn of REFILL's loop (R114) regenerates the next block. -/
theorem Regenerated.block {E : Cipher} {s t : State} {j k : Nat} (h : Regenerated E s j k t)
    (hfit : t.len + t.cfg.blockBytes ≤ capacity t.cfg) : Regenerated E s j (k + 1) (refillBlock E t) := by
  have hcfg := h.lookahead.cfg
  have hlen := h.len
  have hnew (a : Nat) : Memory.lookup (refillBlock E t).buf a =
      if t.len ≤ a ∧ a < t.len + s.cfg.blockBytes
      then (encryptBlock E s.cfg s.key (counterBlock s.cfg s.iv (j + k)))[a - t.len]? else Memory.lookup t.buf a := by
    rw [refillBlock_buf, lookup_writeBytes, length_encryptBlock, hcfg, h.lookahead.key, h.ctr]
  exact {
    lookahead := h.lookahead.trans (refillBlock_lookahead E t)
    cur := h.cur
    len := by rw [refillBlock_len, hlen, hcfg, Nat.succ_mul]
    fits := by rw [hcfg] at hfit; rw [refillBlock_len, hcfg]; exact hfit
    ctr := by rw [refillBlock_ctr, h.ctr, beinc_counterBlock]; rfl
    content := fun i hi => by
      rw [refillBlock_len, hcfg] at hi
      rw [hnew]
      by_cases hold : i < t.len
      · rw [if_neg (by omega)]
        exact h.content i hold
      · have hindex : (j + k) * s.cfg.blockBytes + (i - t.len) = j * s.cfg.blockBytes + i := by
          rw [Nat.add_mul]; omega
        rw [if_pos (by omega), encryptBlock_getElem? E _ _ _ _ (by omega), hindex]
        rfl
    above := fun a ha => by
      rw [refillBlock_len, hcfg] at ha
      rw [hnew, if_neg (by omega)]
      exact h.above a (by omega)
    trace := by
      rw [refillBlock_trace, h.trace, h.ctr, List.range_succ, List.map_append, List.append_assoc]
      rfl }

/-- R136: a seek regenerates as many whole blocks as the buffer holds. -/
theorem refill_regenerated (E : Cipher) {s : State} (hiv : s.iv.length = s.cfg.blockBytes) (j : Nat) :
    Regenerated E s j (capacity s.cfg / s.cfg.blockBytes) (refill E (s.atBlock j)) := by
  obtain ⟨k, hk⟩ : ∃ k, Regenerated E s j k (refill E (s.atBlock j)) :=
    refillLoop_induct (P := fun t => ∃ k, Regenerated E s j k t) (fun _ ⟨k, hk⟩ hfit => ⟨k + 1, hk.block hfit⟩) _ _
      ⟨0, atBlock_regenerated E hiv j⟩
  have hfull : capacity s.cfg < (refill E (s.atBlock j)).len + s.cfg.blockBytes := refill_full E (s.atBlock j)
  have hfits := hk.fits
  rw [hk.len] at hfull hfits
  have hcount : capacity s.cfg / s.cfg.blockBytes = k := Nat.div_eq_of_lt_le hfits (by rw [Nat.succ_mul]; exact hfull)
  rwa [hcount]

theorem seekCore_repositioned (E : Cipher) {s : State} (hiv : s.iv.length = s.cfg.blockBytes) (o : Nat) :
    Repositioned E s (seekCore E o s) o ∧ (seekCore E o s).trace = s.trace ++ repositionRequests s o := by
  have h := refill_regenerated E hiv (chunkIndex s.cfg o)
  have hstep := seekCore_lookahead E o s
  have hpos := seekCore_pos E o s
  have hcur := seekCore_cur E o s
  rw [seekCore_eq] at hstep hpos hcur ⊢
  exact ⟨{
    ctr_length := (congrArg List.length h.ctr).trans (length_tobe ..)
    counter := by
      have hval := congrArg be h.ctr
      rw [be_counterBlock, ← Nat.add_assoc] at hval
      exact hval
    len := h.len
    cur := hcur
    pos := hpos
    content := h.content
    above := h.above
    host := hstep.sameHost
    identity := hstep.sameIdentity }, h.trace⟩

/-! ### SEEKTO and SEEK -/

theorem negativeOffset_eq_false {a : BitVec 64} : negativeOffset a = false ↔ 0 ≤ a.toInt :=
  decide_eq_false_iff_not.trans not_lt

/-- Settles O36: SEEKTO_core and the response. -/
theorem seektoMapsOffset : Obligations.SeektoMapsOffset := by
  intro s offset hc hn hiv
  obtain ⟨h, htrace⟩ := seekCore_repositioned Config.encryptByte hiv (streamOffset offset)
  have hrun := runSeekto_of_legal Config.encryptByte hc (negativeOffset_eq_false.2 hn)
  exact ⟨_, congrArg Host.Outcome.next hrun,
    ⟨h.ctr_length, h.counter, h.len, h.cur, h.pos, h.content, h.above, h.host, h.identity⟩,
    (seekCore_lookahead _ _ s).resPort, congrArg (· ++ _) htrace⟩

/-- Settles O42: SEEKTO_core from the state in which the resource has answered. -/
theorem seekRepositionsBoth : Obligations.SeekRepositionsBoth := by
  intro s whence offset a rest hc hcan hp hn hiv
  rw [exec_seekInstr]
  obtain ⟨h, htrace⟩ :=
    seekCore_repositioned (s := s.asked (.resSeek offset whence) rest) Config.encryptByte hiv (streamOffset a)
  exact ⟨_, runSeek_of_legal _ offset whence hc hcan hp (negativeOffset_eq_false.2 hn),
    ⟨h.ctr_length, h.counter, h.len, h.cur, h.pos, h.content, h.above, h.host, h.identity⟩,
    (seekCore_lookahead _ _ _).resPort, congrArg (· ++ _) htrace⟩

/-! ### What a seek leaves depends on -/

/-- R43: counter values repeat after `2^W` blocks. -/
theorem counterBlock_of_mod_eq {cfg : Params} {j j' : Nat} (h : j' % counterValues cfg = j % counterValues cfg)
    (iv : List Byte) (k : Nat) : counterBlock cfg iv (j' + k) = counterBlock cfg iv (j + k) := by
  have hmod : (be iv + (j' + k)) % counterValues cfg = (be iv + (j + k)) % counterValues cfg :=
    Nat.ModEq.add_left _ (Nat.ModEq.add_right _ h)
  rw [counterBlock, counterBlock, hmod]

/-- The keystream from the start of a block on, by blocks (20_memory R44). -/
theorem ks_from_block (E : Cipher) (s : State) (j i : Nat) : s.ks E (j * s.cfg.blockBytes + i) =
    E s.key (counterBlock s.cfg s.iv (j + i / s.cfg.blockBytes)) (i % s.cfg.blockBytes) := by
  rw [State.ks, keystream, Nat.add_comm (j * _), Nat.add_mul_div_right _ _ s.cfg.blockBytes_pos,
    Nat.add_mul_mod_self_right, Nat.add_comm (i / _)]

/-- Two seeks on the same stream, to offsets at the same place in blocks of the same counter value, leave the same
lookahead. -/
theorem Repositioned.same_lookahead {E : Cipher} {s s' t t' : State} {o o' : Nat} (h : Repositioned E s t o)
    (h' : Repositioned E s' t' o') (hcfg : s'.cfg = s.cfg) (hid : SameIdentity s s')
    (hblock : o' / s.cfg.blockBytes % counterValues s.cfg = o / s.cfg.blockBytes % counterValues s.cfg)
    (hin : o' % s.cfg.blockBytes = o % s.cfg.blockBytes) :
    t'.ctr = t.ctr ∧ t'.len = t.len ∧ t'.cur = t.cur ∧
      ∀ a, a < t.len → Memory.lookup t'.buf a = Memory.lookup t.buf a := by
  obtain ⟨-, hkey, hiv⟩ := hid
  have hctr := h'.counter
  have hlen := h'.len
  have hcur := h'.cur
  rw [hcfg, hiv] at hctr
  rw [hcfg] at hlen hcur
  have hlen' : t'.len = t.len := hlen.trans h.len.symm
  refine ⟨be_inj (by rw [h'.ctr_length, h.ctr_length, hcfg]) ?_, hlen', by rw [hcur, h.cur, hin], fun a ha => ?_⟩
  · rw [hctr, h.counter]
    exact Nat.ModEq.add_right _ (Nat.ModEq.add_left _ hblock)
  · rw [h'.content a (by omega), h.content a ha, ks_from_block, ks_from_block, hcfg, hkey, hiv,
      counterBlock_of_mod_eq hblock]

/-- Settles O38: the two seeks are to one offset of one stream. -/
theorem seektoForgetsHistory : Obligations.SeektoForgetsHistory := by
  intro s s' t t' offset hcfg hid hc hn hiv ht ht'
  obtain ⟨hcons, -, hiv'⟩ := id hid
  obtain ⟨u, hu, hrep, -⟩ := seektoMapsOffset s offset hc hn hiv
  obtain ⟨u', hu', hrep', -⟩ := seektoMapsOffset s' offset (hcons.trans hc) hn (by rw [hiv', hcfg, hiv])
  cases hu.symm.trans ht
  cases hu'.symm.trans ht'
  obtain ⟨hctr, hlen, hcur, hbytes⟩ := hrep.same_lookahead hrep' hcfg hid rfl rfl
  exact ⟨hctr, hlen, hcur, hrep'.pos.trans hrep.pos.symm, hbytes⟩

/-- R180: the keystream repeats after `B * 2^W` bytes. -/
theorem ks_add_period (E : Cipher) (s : State) (n : Nat) :
    s.ks E (n + s.cfg.blockBytes * counterValues s.cfg) = s.ks E n := by
  have hblock : (n / s.cfg.blockBytes + counterValues s.cfg) % counterValues s.cfg =
      n / s.cfg.blockBytes % counterValues s.cfg := Nat.add_mod_right ..
  have hval := counterBlock_of_mod_eq hblock s.iv 0
  rw [Nat.add_zero, Nat.add_zero] at hval
  rw [State.ks, keystream, Nat.add_mul_div_left _ _ s.cfg.blockBytes_pos, Nat.add_mul_mod_self_left, hval]
  rfl

theorem streamXor_add_period (E : Cipher) (s : State) (n : Nat) (data : List Byte) :
    s.streamXor E (n + s.cfg.blockBytes * counterValues s.cfg) data = s.streamXor E n data := by
  have hks (i : Nat) : s.ks E (n + s.cfg.blockBytes * counterValues s.cfg + i) = s.ks E (n + i) := by
    rw [Nat.add_right_comm, ks_add_period]
  simp only [State.streamXor, hks]

@[simp] theorem encryptRequests_append (xs ys : List PortEvent) :
    encryptRequests (xs ++ ys) = encryptRequests xs ++ encryptRequests ys := List.filterMap_append ..

@[simp] theorem encryptRequests_encrypts (blocks : List (List Byte)) :
    encryptRequests (blocks.map PortEvent.cipherEncrypt) = blocks := by
  simp [encryptRequests, PortEvent.encrypt?, List.filterMap_map, Function.comp_def]

/-- R181: the encrypt requests of a seek. -/
theorem encryptRequests_reposition (s : State) (o : Nat) : encryptRequests (repositionRequests s o) =
    (List.range (capacity s.cfg / s.cfg.blockBytes)).map fun j =>
      counterBlock s.cfg s.iv (o / s.cfg.blockBytes + j) := by
  have hmap : repositionRequests s o = ((List.range (capacity s.cfg / s.cfg.blockBytes)).map fun j =>
      counterBlock s.cfg s.iv (o / s.cfg.blockBytes + j)).map PortEvent.cipherEncrypt := by
    simp [repositionRequests, Function.comp_def]
  rw [hmap, encryptRequests_encrypts]

/-- Settles O55: offsets a period apart lie at the same place in blocks of the same counter value. -/
theorem keystreamPeriodic : Obligations.KeystreamPeriodic := by
  intro s o o' hinv hc hn hperiod
  have hiv := hinv.sizes.iv_length
  have ho' : o'.toInt.toNat = o.toInt.toNat + s.cfg.blockBytes * counterValues s.cfg := by
    rw [counterValues, counterBits]; omega
  have hdiv : o'.toInt.toNat / s.cfg.blockBytes = o.toInt.toNat / s.cfg.blockBytes + counterValues s.cfg := by
    rw [ho', Nat.add_mul_div_left _ _ s.cfg.blockBytes_pos]
  have hblock : o'.toInt.toNat / s.cfg.blockBytes % counterValues s.cfg =
      o.toInt.toNat / s.cfg.blockBytes % counterValues s.cfg := by rw [hdiv, Nat.add_mod_right]
  have hin : o'.toInt.toNat % s.cfg.blockBytes = o.toInt.toNat % s.cfg.blockBytes := by
    rw [ho', Nat.add_mul_mod_self_left]
  obtain ⟨t, ht, hrep, -, htrace⟩ := seektoMapsOffset s o hc hn hiv
  obtain ⟨t', ht', hrep', -, htrace'⟩ := seektoMapsOffset s o' hc (by omega) hiv
  obtain ⟨hctr, hlen, hcur, hbytes⟩ := hrep.same_lookahead hrep' rfl ⟨rfl, rfl, rfl⟩ hblock hin
  refine ⟨t, t', ht, ht', hctr, hlen, hcur, fun a => ?_, ?_, fun data => ?_⟩
  · by_cases ha : a < t.len
    · exact hbytes a ha
    · rw [hrep'.above a (by omega), hrep.above a (by omega)]
  · rw [htrace, htrace']
    simp only [encryptRequests_append, encryptRequests_reposition, counterBlock_of_mod_eq hblock]
    rfl
  · obtain ⟨⟨hcfg, -⟩, hcons, hkey, hiv⟩ := And.intro hrep.host hrep.identity
    obtain ⟨⟨hcfg', -⟩, hcons', hkey', hiv'⟩ := And.intro hrep'.host hrep'.identity
    obtain ⟨u, hu, hout, -⟩ := exec_apply_of_inv (exec_inv hinv ht) (hcons.trans hc) data
    obtain ⟨u', hu', hout', -⟩ := exec_apply_of_inv (exec_inv hinv ht') (hcons'.trans hc) data
    refine ⟨u, u', hu, hu', ?_⟩
    rw [hout, hout', streamXor_congr (congrArg _ hcfg) hkey hiv, streamXor_congr (congrArg _ hcfg') hkey' hiv', hrep.pos,
      hrep'.pos, ho', streamXor_add_period]

end Sys2Proof.Machine
end

section
/-! PROOFS. Streams through the buffer: APPLY within the lookahead (40_primitives R117), any split of the data (43_laws R177),
generator and resource at one position (42 R161), and the encrypt requests with their number (43_laws R181, 70 R242). -/

namespace Sys2Proof.Machine

/-! ### APPLY within the lookahead -/

/-- The data combined with the buffer bytes from the cursor on. -/
def State.bufferXor (s : State) (data : List Byte) : List Byte :=
  data.mapIdx fun i b => b ^^^ (Memory.lookup s.buf (s.cur + i)).getD 0

theorem xorBytes_of_readable {s : State} {data : List Byte} (h : Readable s) (hl : data.length ≤ s.avail) :
    xorBytes s s.cur data = .ok (s.bufferXor data) := by
  obtain ⟨hcap, hbytes⟩ := h
  refine xorBytes_ok.2 ⟨by simp [State.bufferXor], fun i hi => ?_⟩
  obtain ⟨b, hb⟩ := hbytes i (by omega)
  have hin : s.cur + i < s.len := by rw [State.avail] at hl; omega
  exact ⟨b, readBuf_ok.2 ⟨by omega, hb⟩, by simp [State.bufferXor, hi, hb]⟩

/-- R117: where a block and all the data are covered, APPLY_core is one XORSTEP without a refill. -/
theorem applyCore_of_covered (E : Cipher) {s : State} {data : List Byte} (h : Readable s)
    (hblock : s.cfg.blockBytes ≤ s.avail) (hl : data.length ≤ s.avail) :
    applyCore E data s = .ok (s.bufferXor data, s.consume data.length) := by
  cases data with
  | nil => rfl
  | cons b bs =>
    have hlow : refillIfLow E s = s := by
      obtain ⟨hshort, -⟩ | ⟨-, e⟩ := refillIfLow_cases E s
      · rw [State.avail] at hblock; omega
      · exact e
    have hstep : xorStep E (b :: bs).length (b :: bs) s = .ok (s.bufferXor (b :: bs), s.consume (b :: bs).length) := by
      have hone := xorStep_of_xorBytes (E := E) (s := s) (src := b :: bs) (n := (b :: bs).length)
        (List.cons_ne_nil b bs) (by rw [hlow]; omega) (by rw [hlow, List.take_length]; exact xorBytes_of_readable h hl)
      rwa [hlow] at hone
    have hlen : (s.bufferXor (b :: bs)).length = (b :: bs).length := by simp [State.bufferXor]
    have hrest : applyLoop E bs.length ((b :: bs).drop (s.bufferXor (b :: bs)).length) (s.consume (b :: bs).length) =
        .ok ([], s.consume (b :: bs).length) := by
      rw [hlen, List.drop_length]
      cases bs.length <;> rfl
    show applyLoop E (bs.length + 1) (b :: bs) s = .ok (s.bufferXor (b :: bs), s.consume (b :: bs).length)
    unfold applyLoop
    simp only [hstep, hrest, List.append_nil]

/-- Settles O35: the one XORSTEP reads the bytes at the cursor. -/
theorem applyWithinLookahead : Obligations.ApplyWithinLookahead := by
  intro s data hc hread hblock hl
  refine ⟨s.bufferXor data, runApply_of_core hc (applyCore_of_covered _ hread hblock hl), by simp [State.bufferXor],
    fun i hi => ?_⟩
  obtain ⟨b, hb⟩ := hread.2 i (by omega)
  exact ⟨b, hb, by simp [State.bufferXor, hi, hb]⟩

/-! ### Chunking (R177) -/

/-- The APPLYs of the parts, one after another, answer the pieces of one stream. -/
theorem execAll_apply_of_inv : ∀ (parts : List (List Byte)) {s : State}, Inv Config.encryptByte s → s.constructed = true →
    ∃ (u : State) (rs : List Response), execAll (parts.map Instr.apply) s = .next u ∧
      responses u.trace = responses s.trace ++ rs ∧ rs.length = parts.length ∧
      (rs.map Response.payload).flatten = s.streamXor Config.encryptByte s.pos parts.flatten ∧
      u.pos = s.pos + parts.flatten.length
  | [], s, _, _ => ⟨s, [], rfl, (List.append_nil _).symm, rfl, rfl, rfl⟩
  | part :: parts, s, h, hc => by
    obtain ⟨t, blocks, hexec, htrace, hpos, ⟨hcfg, -⟩, ⟨hcons, hkey, hiv⟩, -, -, ht⟩ := applyOutputsStream s part h hc
    obtain ⟨u, rs, hrest, hresp, hlen, hout, hend⟩ := execAll_apply_of_inv parts ht (hcons.trans hc)
    refine ⟨u, ⟨.ok, 0, countField part.length, s.streamXor Config.encryptByte s.pos part⟩ :: rs,
      (execAll_cons_of_next hexec).trans hrest, ?_, congrArg Nat.succ hlen, ?_, ?_⟩
    · rw [hresp, htrace, responses_append, responses_append, responses_encrypts, List.append_nil, List.append_assoc]
      rfl
    · rw [List.map_cons, List.flatten_cons, List.flatten_cons, hout, streamXor_append, hpos,
        streamXor_congr (congrArg _ hcfg) hkey hiv]
    · rw [hend, hpos, List.flatten_cons, List.length_append, Nat.add_assoc]

/-- Settles O53: both runs put out the same stretch of one stream. -/
theorem chunkingIndependence : Obligations.ChunkingIndependence := by
  intro s parts h hc
  obtain ⟨t, ht, hout, hpos, -⟩ := exec_apply_of_inv h hc parts.flatten
  obtain ⟨u, rs, hu, hresp, hlen, hparts, hend⟩ := execAll_apply_of_inv parts h hc
  exact ⟨t, u, rs, ht, hu, hresp, hlen, hparts.trans hout.symm, hend.trans hpos.symm⟩

/-! ### Positions (R161) -/

theorem applyCore_pos {E : Cipher} {src out : List Byte} {s t : State} (h : applyCore E src s = .ok (out, t)) :
    out.length = src.length ∧ t.pos = s.pos + src.length :=
  applyLoop_drains _ _ _ _ _ le_rfl h

/-- R150: RD advances by the number of bytes the resource returned. -/
theorem runRd_pos {E : Cipher} {len : BitVec 64} {s t : State} (hc : s.constructed = true)
    (h : runRd E len s = .next t) :
    ∃ d rstat rest, s.resPort = .read d rstat :: rest ∧ t.pos = s.pos + d.length := by
  obtain ⟨hc', -⟩ | ⟨-, d, rstat, rest, out, u, hp, -, hcore, rfl⟩ := runRd_next h
  · simp [hc] at hc'
  · exact ⟨d, rstat, rest, hp, (applyCore_pos hcore).2⟩

/-- R154: WR advances by the whole length, however much the resource took. -/
theorem runWr_pos {E : Cipher} {data : List Byte} {s t : State} (hc : s.constructed = true)
    (h : runWr E data s = .next t) :
    ∃ m rstat rest, s.resPort = .write m rstat :: rest ∧ t.pos = s.pos + data.length := by
  obtain ⟨hc', -⟩ | ⟨-, scratch, u, m, rstat, rest, hcore, hp, -, rfl⟩ := runWr_next h
  · simp [hc] at hc'
  · exact ⟨m, rstat, rest, (applyCore_lookahead hcore).resPort.symm.trans hp, (applyCore_pos hcore).2⟩

/-- Settles O49: each of the three commands by where it leaves the generator. -/
theorem positionsStaySynchronised : Obligations.PositionsStaySynchronised := by
  intro s t i answer rest rpos hinv hc hp h
  refine ⟨fun len hi hpos => ?_, fun data hi hpos => ?_, fun o hseek ⟨whence, offset, hi⟩ => ?_⟩
  · subst hi hpos
    obtain ⟨d, rstat, rest', hp', hend⟩ := runRd_pos hc h
    cases hp.symm.trans hp'
    exact congrArg some hend.symm
  · subst hi hpos
    obtain ⟨m, rstat, rest', hp', hend⟩ := runWr_pos hc h
    cases hp.symm.trans hp'
    simp [resourcePositionAfter, hend]
  · obtain ⟨t', ht', hend, -⟩ := exec_seek_of_inv hinv hc hseek
    cases ht'.symm.trans h
    obtain ⟨offset', rfl, -, -⟩ | ⟨_, _, a, rest', -, -, hp', hn, rfl⟩ := hseek
    · cases whence <;> cases hi
    · cases hp.symm.trans hp'
      rw [hend]
      simp [resourcePositionAfter, hn]

/-! ### Encrypt requests in order (R181) and their number (R242) -/

/-- `seen` is what was seen in `s` and the encrypt requests for exactly the next `n` blocks, with other events. -/
def FetchedBlocks (s : State) (n : Nat) (seen : List PortEvent) : Prop :=
  encryptRequests seen = encryptRequests s.trace ++ (List.range n).map fun j => counterBlock s.cfg s.iv (s.nextBlock + j)

theorem FetchedBlocks.length {s : State} {n : Nat} {seen : List PortEvent} (h : FetchedBlocks s n seen) :
    (encryptRequests seen).length = (encryptRequests s.trace).length + n := by
  rw [h, List.length_append, List.length_map, List.length_range]

/-- Any other event at the end is no encrypt request. -/
theorem FetchedBlocks.snoc {s : State} {n : Nat} {seen : List PortEvent} {e : PortEvent} (h : FetchedBlocks s n seen)
    (he : e.encrypt? = none) : FetchedBlocks s n (seen ++ [e]) := by
  rw [FetchedBlocks, encryptRequests_append, h]
  simp [encryptRequests, he]

theorem FetchedBlocks.none (s : State) : FetchedBlocks s 0 s.trace := (List.append_nil _).symm

theorem BlocksInOrder.fetchedBlocks {s t : State} (h : BlocksInOrder s t) :
    FetchedBlocks s (t.nextBlock - s.nextBlock) t.trace := by
  have hmap (n : Nat) : s.blockRequests n =
      ((List.range n).map fun j => counterBlock s.cfg s.iv (s.nextBlock + j)).map PortEvent.cipherEncrypt := by
    simp [State.blockRequests, Function.comp_def]
  rw [FetchedBlocks, h.trace, encryptRequests_append, hmap, encryptRequests_encrypts]

/-- R242: the blocks beyond those for the data itself fill the buffer at most once. -/
theorem nextBlock_bound {E : Cipher} {s u : State} {L : Nat} (hs : Coherent E s) (hu : Coherent E u)
    (hcfg : u.cfg = s.cfg) (hpos : u.pos = s.pos + L) :
    u.nextBlock - s.nextBlock ≤ L / s.cfg.blockBytes + capacity s.cfg / s.cfg.blockBytes + 1 := by
  have hsmul := hs.nextBlock_mul
  have humul := hu.nextBlock_mul
  have hcap : u.avail ≤ capacity s.cfg := (Nat.sub_le _ _).trans (hcfg ▸ hu.sizes.len_le_capacity)
  rw [hcfg] at humul
  have hblocks : (u.nextBlock - s.nextBlock) * s.cfg.blockBytes ≤ L + capacity s.cfg := by
    rw [Nat.sub_mul]; omega
  calc u.nextBlock - s.nextBlock ≤ (L + capacity s.cfg) / s.cfg.blockBytes :=
        (Nat.le_div_iff_mul_le s.cfg.blockBytes_pos).2 hblocks
    _ ≤ _ := by rw [Nat.add_div s.cfg.blockBytes_pos]; split <;> omega

/-- From `s` to `t` the cipher was asked for the next blocks in order, no more than R242 allows for `L` bytes. -/
def FetchesFor (s : State) (L : Nat) (t : State) : Prop :=
  ∃ n, n ≤ L / s.cfg.blockBytes + capacity s.cfg / s.cfg.blockBytes + 1 ∧ t.nextBlock = s.nextBlock + n ∧
    FetchedBlocks s n t.trace

theorem applyCore_fetches {E : Cipher} {s u : State} {src out : List Byte} (h : Inv E s) (hc : s.constructed = true)
    (hcore : applyCore E src s = .ok (out, u)) : FetchesFor s src.length u := by
  obtain ⟨u', hu', hpos, hinv, hord⟩ := applyCore_of_inv h hc src
  cases hu'.symm.trans hcore
  have hc' := hord.lookahead.constructed.trans hc
  have hle := hord.nextBlock_le
  exact ⟨_, nextBlock_bound (h.coherent hc) (hinv.coherent hc') hord.lookahead.cfg hpos, by omega, hord.fetchedBlocks⟩

section
variable {E : Cipher} {s t : State}

theorem runApply_fetches {data : List Byte} (h : Inv E s) (hc : s.constructed = true)
    (hrun : runApply E data s = .next t) : FetchesFor s data.length t := by
  obtain ⟨hc', -⟩ | ⟨-, out, u, hcore, rfl⟩ := runApply_next hrun
  · simp [hc] at hc'
  · obtain ⟨n, hn, hnext, hseen⟩ := applyCore_fetches h hc hcore
    exact ⟨n, hn, hnext, hseen.snoc rfl⟩

theorem runWr_fetches {data : List Byte} (h : Inv E s) (hc : s.constructed = true)
    (hrun : runWr E data s = .next t) : FetchesFor s data.length t := by
  obtain ⟨hc', -⟩ | ⟨-, scratch, u, m, rstat, rest, hcore, -, -, rfl⟩ := runWr_next hrun
  · simp [hc] at hc'
  · obtain ⟨n, hn, hnext, hseen⟩ := applyCore_fetches h hc hcore
    exact ⟨n, hn, hnext, (hseen.snoc (e := .resWrite scratch) rfl).snoc rfl⟩

/-- RD decrypts no more bytes than it asks for (R55). -/
theorem runRd_fetches {len : BitVec 64} (h : Inv E s) (hc : s.constructed = true)
    (hrun : runRd E len s = .next t) : FetchesFor s len.toNat t := by
  obtain ⟨hc', -⟩ | ⟨-, d, rstat, rest, out, u, -, hd, hcore, rfl⟩ := runRd_next hrun
  · simp [hc] at hc'
  · obtain ⟨n, hn, hnext, hseen⟩ := applyCore_fetches (h.asked (.resRead len) rest) hc hcore
    have hbound : n ≤ d.length / s.cfg.blockBytes + capacity s.cfg / s.cfg.blockBytes + 1 := hn
    have hdiv : d.length / s.cfg.blockBytes ≤ len.toNat / s.cfg.blockBytes := Nat.div_le_div_right hd
    have hbefore : encryptRequests (s.trace ++ [.resRead len]) = encryptRequests s.trace := by
      rw [encryptRequests_append]; exact List.append_nil _
    refine ⟨n, by omega, hnext, FetchedBlocks.snoc ?_ rfl⟩
    rw [FetchedBlocks, ← hbefore]
    exact hseen

end

theorem exec_fetches {i : Instr} {L : Nat} {s t : State} (h : Inv Config.encryptByte s) (hc : s.constructed = true)
    (hi : (∃ data, (i = .apply data ∨ i = .wr data) ∧ data.length = L) ∨ ∃ len, i = .rd len ∧ len.toNat = L)
    (hexec : exec i s = .next t) : FetchesFor s L t := by
  obtain ⟨data, rfl | rfl, rfl⟩ | ⟨len, rfl, rfl⟩ := hi
  · exact runApply_fetches h hc hexec
  · exact runWr_fetches h hc hexec
  · exact runRd_fetches h hc hexec

/-- R173, R181: whichever command repositions the generator, its encrypt requests are those of the repositioning. -/
theorem exec_seeksTo {i : Instr} {s : State} {o : Nat} (hc : s.constructed = true)
    (hiv : s.iv.length = s.cfg.blockBytes) (h : SeeksTo s o i) :
    ∃ t, exec i s = .next t ∧ Repositioned Config.encryptByte s t o ∧
      encryptRequests t.trace = encryptRequests s.trace ++ encryptRequests (repositionRequests s o) := by
  obtain ⟨offset, rfl, hn, rfl⟩ | ⟨whence, offset, a, rest, rfl, hcan, hp, hn, rfl⟩ := h
  · obtain ⟨t, ht, hrep, -, htrace⟩ := seektoMapsOffset s offset hc (negativeOffset_eq_false.1 hn) hiv
    refine ⟨t, ht, hrep, ?_⟩
    rw [htrace, encryptRequests_append, encryptRequests_append]
    exact List.append_nil _
  · obtain ⟨t, ht, hrep, -, htrace⟩ :=
      seekRepositionsBoth s whence offset a rest hc hcan hp (negativeOffset_eq_false.1 hn) hiv
    refine ⟨t, ht, hrep, ?_⟩
    rw [htrace, encryptRequests_append, encryptRequests_append, encryptRequests_append,
      show encryptRequests [PortEvent.resSeek offset whence] = [] from rfl, List.append_nil]
    exact List.append_nil _

/-- R136: after a seek the first block not in the buffer is the one behind those regenerated. -/
theorem Repositioned.nextBlock_eq {E : Cipher} {s t : State} {o : Nat} (h : Repositioned E s t o) :
    t.nextBlock = o / s.cfg.blockBytes + capacity s.cfg / s.cfg.blockBytes := by
  obtain ⟨hcfg, -⟩ := h.host
  have hpos := s.cfg.blockBytes_pos
  have hmod := Nat.mod_lt o hpos
  have hsplit := Nat.div_add_mod' o s.cfg.blockBytes
  have hone : 1 ≤ capacity s.cfg / s.cfg.blockBytes := Nat.div_pos (blockBytes_le_capacity s.cfg) hpos
  have hblock := Nat.mul_le_mul_right s.cfg.blockBytes hone
  have hend : t.pos + t.avail =
      (o / s.cfg.blockBytes + capacity s.cfg / s.cfg.blockBytes) * s.cfg.blockBytes := by
    rw [State.avail, h.pos, h.len, h.cur, Nat.add_mul]
    omega
  rw [State.nextBlock, hend, hcfg, Nat.mul_div_cancel _ hpos]

/-- Settles O56: the streaming commands by APPLY_core's requests, the seeks by those of the repositioning. -/
theorem encryptRequestsFollowTheStream : Obligations.EncryptRequestsFollowTheStream := by
  intro i s t h hc hexec
  refine ⟨fun hi => ?_, fun o hseek => ?_⟩
  · have hkind : ∃ L, (∃ data, (i = .apply data ∨ i = .wr data) ∧ data.length = L) ∨
        ∃ len, i = .rd len ∧ len.toNat = L := by
      obtain ⟨data, hi⟩ | ⟨len, hi⟩ := hi
      · exact ⟨data.length, .inl ⟨data, hi, rfl⟩⟩
      · exact ⟨len.toNat, .inr ⟨len, hi, rfl⟩⟩
    obtain ⟨L, hkind⟩ := hkind
    obtain ⟨n, -, hnext, hseen⟩ := exec_fetches h hc hkind hexec
    rw [hnext, Nat.add_sub_cancel_left]
    exact ⟨Nat.le_add_right _ _, hseen⟩
  · obtain ⟨t', ht', hrep, hreq⟩ := exec_seeksTo hc h.sizes.iv_length hseek
    cases ht'.symm.trans hexec
    exact ⟨hrep.nextBlock_eq, by rw [hreq, encryptRequests_reposition]⟩

/-- Settles O57: a command that answers, by its requests' number; one that hangs, by those of its work before the
unanswered request. -/
theorem encryptWorkBound : Obligations.EncryptWorkBound := by
  intro i L s seen h hc hi hrun
  have hfetched : ∃ n, n ≤ L / s.cfg.blockBytes + capacity s.cfg / s.cfg.blockBytes + 1 ∧ FetchedBlocks s n seen := by
    obtain ⟨t, hexec, rfl⟩ | hf := hrun
    · obtain ⟨n, hn, -, hseen⟩ := exec_fetches h hc hi hexec
      exact ⟨n, hn, hseen⟩
    · obtain ⟨data, rfl | rfl, rfl⟩ | ⟨len, rfl, rfl⟩ := hi
      · exact absurd hf (runApply_no_fault h)
      · obtain ⟨-, scratch, u, hcore, e⟩ := runWr_fault h hf
        cases e
        obtain ⟨n, hn, -, hseen⟩ := applyCore_fetches h hc hcore
        exact ⟨n, hn, hseen.snoc rfl⟩
      · cases runRd_fault h hf
        exact ⟨0, Nat.zero_le _, (FetchedBlocks.none s).snoc rfl⟩
  obtain ⟨n, hn, hseen⟩ := hfetched
  rw [hseen.length]
  omega

end Sys2Proof.Machine
end
